-- ==== Sys2Proof/Word.lean ====
section
/-! DEFINITION. The word types of the CHIP-8 interpreter core: the widths of 00_scope.md rules R4 and R9. -/

namespace Sys2Proof

/-- A register, timer or memory byte: 8 bits, unsigned (R4 `XLEN`, `TIMER_WIDTH`, R23). -/
abbrev Byte := BitVec 8

/-- A 16-bit value: `PC`, `I`, a call-stack entry, an instruction word (R4, R45). -/
abbrev Word := BitVec 16

/-- The 12-bit field `nnn` (R46). -/
abbrev Addr12 := BitVec 12

/-- The number of a general register: 0 is `V0`, 15 is `VF` (R10). All 16 numbers are legal (R47). -/
abbrev Reg := Fin 16

/-- `VF`, the register that doubles as the flag (R10, R12). -/
abbrev Reg.vf : Reg := 15

/-- The 16 key levels: bit `k` is 1 when key `k` is pressed (R24, R132). -/
abbrev KeyLevels := BitVec 16

end Sys2Proof
end

