-- ==== Sys2Proof/Config.lean ====
section
/-! DEFINITION. The parameters this hardware takes (00_scope.md rule R4) and the one value the spec leaves
open: the random byte of `Cxnn` (R25, 92_eei_decisions.md D18). -/

namespace Sys2Proof.Config

/-- `MEM_SIZE`: 4096 bytes, addresses 0x000 to 0xFFF (R4, R23, R35). -/
@[simp] abbrev memSize : Nat := 0x1000

/-- `STACK_DEPTH`: ten entries (R4, R17). -/
@[simp] abbrev stackDepth : Nat := 10

/-- `FB_W`: 64 columns (R4, R22). -/
@[simp] abbrev fbWidth : Nat := 64

/-- `FB_H`: 32 rows (R4, R22). -/
@[simp] abbrev fbHeight : Nat := 32

/-- `PC_RESET`: the fixed address of the first instruction (R4, R14, R142). -/
@[simp] abbrev pcReset : Word := 0x200#16

/-- `FONT_BASE`: the address of glyph 0 (R4, R37). -/
@[simp] abbrev fontBase : Nat := 0x050

/-- `GLYPH_BYTES`: 5 bytes per glyph (R4, R37). -/
@[simp] abbrev glyphBytes : Nat := 5

/-- `INSTR_LEN`: every instruction is 2 bytes (R4, R45). -/
@[simp] abbrev instrLen : Word := 2#16

/-- What a byte of `MEM` that the memory list does not name reads as. DESIGN CHOICE (log entry 5): the spec makes
the launch image a parameter of the run (R143 c) and calls a loader that zero-fills the usual case. -/
@[simp] abbrev unlistedByte : Byte := 0x00#8

/-- FREE VALUE (log entry 4): the random byte of the `n`th tick whose byte the environment has not given. It has no
body: the spec states no law of `rnd` (R25, D18), so nothing can be proved of its value. -/
opaque rndByte : Nat → Byte

end Sys2Proof.Config
end

