-- ==== Sys2Proof/WellFormed.lean ====
section
/-! DEFINITION. The opcode table of 30_encoding.md rule R50 as rows of match and mask, the row of each instruction,
and which instructions are well formed. The operands of an instruction carry their own ranges (a register number is
below 16, `nn` has 8 bits, `nnn` 12, `n` 4: R46, R47), so one check is left: a `DW` word matches no other row (R51). -/

namespace Sys2Proof

/-- One row of the opcode table: a word `w` is the row's instruction iff `w &&& mask = value` (R49). -/
structure Row where
  /-- The source's hexadecimal pattern, the normative name of the row (R54). -/
  pattern : String
  /-- The spec's mnemonic (R54). -/
  mnemonic : String
  /-- The table's `match` word. -/
  value : Word
  /-- The table's `mask` word. -/
  mask : Word
  deriving DecidableEq, Repr

/-- R49: the word has the row's bits where the mask is 1. -/
def Row.fits (r : Row) (w : Word) : Bool := w &&& r.mask == r.value

/-- System and control rows 1 to 7 of R50. -/
def rows1To7 : List Row :=
  [⟨"00E0", "CLS", 0x00E0#16, 0xFFFF#16⟩,
   ⟨"00EE", "RET", 0x00EE#16, 0xFFFF#16⟩,
   ⟨"1nnn", "JP", 0x1000#16, 0xF000#16⟩,
   ⟨"2nnn", "CALL", 0x2000#16, 0xF000#16⟩,
   ⟨"3xnn", "SE", 0x3000#16, 0xF000#16⟩,
   ⟨"4xnn", "SNE", 0x4000#16, 0xF000#16⟩,
   ⟨"5xy0", "SE", 0x5000#16, 0xF00F#16⟩]

/-- Register loads, arithmetic and logic, rows 8 to 18 of R50. -/
def rows8To18 : List Row :=
  [⟨"6xnn", "LD", 0x6000#16, 0xF000#16⟩,
   ⟨"7xnn", "ADD", 0x7000#16, 0xF000#16⟩,
   ⟨"8xy0", "LD", 0x8000#16, 0xF00F#16⟩,
   ⟨"8xy1", "OR", 0x8001#16, 0xF00F#16⟩,
   ⟨"8xy2", "AND", 0x8002#16, 0xF00F#16⟩,
   ⟨"8xy3", "XOR", 0x8003#16, 0xF00F#16⟩,
   ⟨"8xy4", "ADD", 0x8004#16, 0xF00F#16⟩,
   ⟨"8xy5", "SUB", 0x8005#16, 0xF00F#16⟩,
   ⟨"8xy6", "SHR", 0x8006#16, 0xF00F#16⟩,
   ⟨"8xy7", "SUBN", 0x8007#16, 0xF00F#16⟩,
   ⟨"8xyE", "SHL", 0x800E#16, 0xF00F#16⟩]

/-- Rows 19 to 25 of R50. -/
def rows19To25 : List Row :=
  [⟨"9xy0", "SNE", 0x9000#16, 0xF00F#16⟩,
   ⟨"Annn", "LD", 0xA000#16, 0xF000#16⟩,
   ⟨"Bnnn", "JP", 0xB000#16, 0xF000#16⟩,
   ⟨"Cxnn", "RND", 0xC000#16, 0xF000#16⟩,
   ⟨"Dxyn", "DRW", 0xD000#16, 0xF000#16⟩,
   ⟨"Ex9E", "SKP", 0xE09E#16, 0xF0FF#16⟩,
   ⟨"ExA1", "SKNP", 0xE0A1#16, 0xF0FF#16⟩]

/-- Family F, rows 26 to 34 of R50. -/
def rows26To34 : List Row :=
  [⟨"Fx07", "LD", 0xF007#16, 0xF0FF#16⟩,
   ⟨"Fx0A", "LD", 0xF00A#16, 0xF0FF#16⟩,
   ⟨"Fx15", "LD", 0xF015#16, 0xF0FF#16⟩,
   ⟨"Fx18", "LD", 0xF018#16, 0xF0FF#16⟩,
   ⟨"Fx1E", "ADD", 0xF01E#16, 0xF0FF#16⟩,
   ⟨"Fx29", "LD", 0xF029#16, 0xF0FF#16⟩,
   ⟨"Fx33", "LD", 0xF033#16, 0xF0FF#16⟩,
   ⟨"Fx55", "LD", 0xF055#16, 0xF0FF#16⟩,
   ⟨"Fx65", "LD", 0xF065#16, 0xF0FF#16⟩]

/-- R50: the 34 instruction rows, in the table's order. The default row 35 (`DW`) is what matches none of them. -/
def opcodeTable : List Row := rows1To7 ++ rows8To18 ++ rows19To25 ++ rows26To34

/-- The number of an instruction's row in R50's table (its first column). -/
def Instr.rowNumber : Instr → Nat
  | .cls => 1
  | .ret => 2
  | .jp _ => 3
  | .call _ => 4
  | .seImm _ _ => 5
  | .sneImm _ _ => 6
  | .seReg _ _ => 7
  | .ldImm _ _ => 8
  | .addImm _ _ => 9
  | .ldReg _ _ => 10
  | .or _ _ => 11
  | .and _ _ => 12
  | .xor _ _ => 13
  | .addReg _ _ => 14
  | .sub _ _ => 15
  | .shr _ => 16
  | .subn _ _ => 17
  | .shl _ => 18
  | .sneReg _ _ => 19
  | .ldI _ => 20
  | .jpV0 _ => 21
  | .rnd _ _ => 22
  | .drw _ _ _ => 23
  | .skp _ => 24
  | .sknp _ => 25
  | .ldVxDT _ => 26
  | .ldVxK _ => 27
  | .ldDTVx _ => 28
  | .ldSTVx _ => 29
  | .addI _ => 30
  | .ldF _ => 31
  | .ldB _ => 32
  | .ldMemVx _ => 33
  | .ldVxMem _ => 34
  | .dw _ => 35

/-- The row of an instruction among the 34; none for `DW`, the default row. -/
def Instr.row (i : Instr) : Option Row := opcodeTable[i.rowNumber - 1]?

/-- R51: the word matches no row of the 34, so it is a no-operation. -/
def matchesNoRow (w : Word) : Bool := opcodeTable.all fun r => !r.fits w

/-- Well-formed instructions: the word of a `DW` matches no other row (R51, R56); every other constructor's operands
are in range by their types. -/
def Instr.wf : Instr → Bool
  | .cls => true
  | .ret => true
  | .jp _ => true
  | .call _ => true
  | .seImm _ _ => true
  | .sneImm _ _ => true
  | .seReg _ _ => true
  | .ldImm _ _ => true
  | .addImm _ _ => true
  | .ldReg _ _ => true
  | .or _ _ => true
  | .and _ _ => true
  | .xor _ _ => true
  | .addReg _ _ => true
  | .sub _ _ => true
  | .shr _ => true
  | .subn _ _ => true
  | .shl _ => true
  | .sneReg _ _ => true
  | .ldI _ => true
  | .jpV0 _ => true
  | .rnd _ _ => true
  | .drw _ _ _ => true
  | .skp _ => true
  | .sknp _ => true
  | .ldVxDT _ => true
  | .ldVxK _ => true
  | .ldDTVx _ => true
  | .ldSTVx _ => true
  | .addI _ => true
  | .ldF _ => true
  | .ldB _ => true
  | .ldMemVx _ => true
  | .ldVxMem _ => true
  | .dw w => matchesNoRow w

end Sys2Proof
end

