-- ==== Sys2Proof/Decode.lean ====
section
/-! DEFINITION. Decoding: the fields of an instruction word (30_encoding.md R46), the dispatch (R48, 40_cycle.md R63),
the byte decoder (R30, R45); after it the encoder, written from the encodings of R50, the assembler syntax of R54, and
the host's entry point `decodeTableWord`. -/

namespace Sys2Proof

/-! ### The fields (R46, R62) -/

/-- Bits 15 to 12: the opcode family. -/
def family (w : Word) : BitVec 4 := w.extractLsb' 12 4

/-- Bits 11 to 8 as bits. -/
def xBits (w : Word) : BitVec 4 := w.extractLsb' 8 4

/-- Bits 7 to 4 as bits. -/
def yBits (w : Word) : BitVec 4 := w.extractLsb' 4 4

/-- Bits 11 to 8: the first register number. -/
def fieldX (w : Word) : Reg := (xBits w).toFin

/-- Bits 7 to 4: the second register number. -/
def fieldY (w : Word) : Reg := (yBits w).toFin

/-- Bits 3 to 0. -/
def fieldN (w : Word) : BitVec 4 := w.extractLsb' 0 4

/-- Bits 7 to 0, the low byte. -/
def fieldNN (w : Word) : Byte := w.extractLsb' 0 8

/-- Bits 11 to 0. -/
def fieldNNN (w : Word) : Addr12 := w.extractLsb' 0 12

/-! ### Dispatch: first on the family, then on the family's discriminant (R48, R63) -/

/-- Family 0: all 12 bits of `nnn` are compared. -/
def decode0 (w : Word) : Instr :=
  if fieldNNN w = 0x0E0#12 then .cls
  else if fieldNNN w = 0x0EE#12 then .ret
  else .dw w

/-- Family 8: the discriminant is `n`. -/
def decode8 (w : Word) : Instr :=
  if fieldN w = 0x0#4 then .ldReg (fieldX w) (fieldY w)
  else if fieldN w = 0x1#4 then .or (fieldX w) (fieldY w)
  else if fieldN w = 0x2#4 then .and (fieldX w) (fieldY w)
  else if fieldN w = 0x3#4 then .xor (fieldX w) (fieldY w)
  else if fieldN w = 0x4#4 then .addReg (fieldX w) (fieldY w)
  else if fieldN w = 0x5#4 then .sub (fieldX w) (fieldY w)
  else if fieldN w = 0x6#4 then .shr (fieldX w)
  else if fieldN w = 0x7#4 then .subn (fieldX w) (fieldY w)
  else if fieldN w = 0xE#4 then .shl (fieldX w)
  else .dw w

/-- Family E: the discriminant is `nn`. -/
def decodeE (w : Word) : Instr :=
  if fieldNN w = 0x9E#8 then .skp (fieldX w)
  else if fieldNN w = 0xA1#8 then .sknp (fieldX w)
  else .dw w

/-- Family F: the discriminant is `nn`. -/
def decodeF (w : Word) : Instr :=
  if fieldNN w = 0x07#8 then .ldVxDT (fieldX w)
  else if fieldNN w = 0x0A#8 then .ldVxK (fieldX w)
  else if fieldNN w = 0x15#8 then .ldDTVx (fieldX w)
  else if fieldNN w = 0x18#8 then .ldSTVx (fieldX w)
  else if fieldNN w = 0x1E#8 then .addI (fieldX w)
  else if fieldNN w = 0x29#8 then .ldF (fieldX w)
  else if fieldNN w = 0x33#8 then .ldB (fieldX w)
  else if fieldNN w = 0x55#8 then .ldMemVx (fieldX w)
  else if fieldNN w = 0x65#8 then .ldVxMem (fieldX w)
  else .dw w

/-- The instruction of a 16-bit word: every word has one (R51), so this is total. Families 5 and 9 ask for `n = 0`
(R48, decision D14); a word no row recognises is the no-operation `DW w`. -/
def decodeWord (w : Word) : Instr :=
  match family w with
  | 0x0#4 => decode0 w
  | 0x1#4 => .jp (fieldNNN w)
  | 0x2#4 => .call (fieldNNN w)
  | 0x3#4 => .seImm (fieldX w) (fieldNN w)
  | 0x4#4 => .sneImm (fieldX w) (fieldNN w)
  | 0x5#4 => if fieldN w = 0x0#4 then .seReg (fieldX w) (fieldY w) else .dw w
  | 0x6#4 => .ldImm (fieldX w) (fieldNN w)
  | 0x7#4 => .addImm (fieldX w) (fieldNN w)
  | 0x8#4 => decode8 w
  | 0x9#4 => if fieldN w = 0x0#4 then .sneReg (fieldX w) (fieldY w) else .dw w
  | 0xA#4 => .ldI (fieldNNN w)
  | 0xB#4 => .jpV0 (fieldNNN w)
  | 0xC#4 => .rnd (fieldX w) (fieldNN w)
  | 0xD#4 => .drw (fieldX w) (fieldY w) (fieldN w)
  | 0xE#4 => decodeE w
  | _ => decodeF w   -- the one value left, 0xF

/-! ### Bytes -/

/-- Why bytes are no instruction: no word is illegal (R51), so only too few bytes are rejected. -/
inductive DecodeError where
  /-- Fewer than two bytes are left: every instruction is exactly two bytes (R45). Safe: nothing is executed. -/
  | truncated
  deriving DecidableEq, Repr

/-- R30: the first byte is bits 15 to 8 of the word, the second bits 7 to 0. -/
def wordOfBytes (hi lo : Byte) : Word := hi ++ lo

/-- The decoder on bytes, lowest address first: the instruction and the bytes after it. -/
def decode : List Byte → Except DecodeError (Instr × List Byte)
  | hi :: lo :: rest => .ok (decodeWord (wordOfBytes hi lo), rest)
  | _ => .error .truncated

/-! ### The encoder -/

/-- A register number as the 4 bits of its field. -/
def regBits (x : Reg) : BitVec 4 := BitVec.ofFin x

/-- Format `NNN`: `ffff nnnn nnnn nnnn` (R46). -/
def formatNNN (f : BitVec 4) (nnn : Addr12) : Word := f ++ nnn

/-- Formats `XNN` and `X`: `ffff xxxx nnnn nnnn`, the low byte an immediate or a fixed sub-opcode (R46). -/
def formatXNN (f : BitVec 4) (x : Reg) (nn : Byte) : Word := f ++ regBits x ++ nn

/-- Formats `XYN` and `XY`: `ffff xxxx yyyy nnnn`, the low digit an immediate or a fixed sub-opcode (R46). -/
def formatXYN (f : BitVec 4) (x y : Reg) (n : BitVec 4) : Word := f ++ regBits x ++ regBits y ++ n

/-- The word of an instruction, from the encodings of R50 (the `y` bits `8xy6` and `8xyE` ignore are 0, R54). -/
def encode : Instr → Word
  | .cls => 0x00E0#16
  | .ret => 0x00EE#16
  | .jp nnn => formatNNN 0x1#4 nnn
  | .call nnn => formatNNN 0x2#4 nnn
  | .seImm x nn => formatXNN 0x3#4 x nn
  | .sneImm x nn => formatXNN 0x4#4 x nn
  | .seReg x y => formatXYN 0x5#4 x y 0x0#4
  | .ldImm x nn => formatXNN 0x6#4 x nn
  | .addImm x nn => formatXNN 0x7#4 x nn
  | .ldReg x y => formatXYN 0x8#4 x y 0x0#4
  | .or x y => formatXYN 0x8#4 x y 0x1#4
  | .and x y => formatXYN 0x8#4 x y 0x2#4
  | .xor x y => formatXYN 0x8#4 x y 0x3#4
  | .addReg x y => formatXYN 0x8#4 x y 0x4#4
  | .sub x y => formatXYN 0x8#4 x y 0x5#4
  | .shr x => formatXYN 0x8#4 x 0 0x6#4
  | .subn x y => formatXYN 0x8#4 x y 0x7#4
  | .shl x => formatXYN 0x8#4 x 0 0xE#4
  | .sneReg x y => formatXYN 0x9#4 x y 0x0#4
  | .ldI nnn => formatNNN 0xA#4 nnn
  | .jpV0 nnn => formatNNN 0xB#4 nnn
  | .rnd x nn => formatXNN 0xC#4 x nn
  | .drw x y n => formatXYN 0xD#4 x y n
  | .skp x => formatXNN 0xE#4 x 0x9E#8
  | .sknp x => formatXNN 0xE#4 x 0xA1#8
  | .ldVxDT x => formatXNN 0xF#4 x 0x07#8
  | .ldVxK x => formatXNN 0xF#4 x 0x0A#8
  | .ldDTVx x => formatXNN 0xF#4 x 0x15#8
  | .ldSTVx x => formatXNN 0xF#4 x 0x18#8
  | .addI x => formatXNN 0xF#4 x 0x1E#8
  | .ldF x => formatXNN 0xF#4 x 0x29#8
  | .ldB x => formatXNN 0xF#4 x 0x33#8
  | .ldMemVx x => formatXNN 0xF#4 x 0x55#8
  | .ldVxMem x => formatXNN 0xF#4 x 0x65#8
  | .dw w => w

/-- R30: bits 15 to 8 of a word, the byte stored at the lower address. -/
def highByte (w : Word) : Byte := w.extractLsb' 8 8

/-- R30: bits 7 to 0 of a word, the byte stored at the higher address. -/
def lowByte (w : Word) : Byte := w.extractLsb' 0 8

/-- The two bytes of an instruction, lowest address first. -/
def encodeBytes (i : Instr) : List Byte := [highByte (encode i), lowByte (encode i)]

/-! ### Assembler syntax (R54, R55) -/

/-- One hexadecimal digit. -/
def hexDigit (n : Nat) : Char := "0123456789ABCDEF".toList.getD (n % 16) '0'

/-- The low `k` hexadecimal digits of a number, written `0x..`. -/
def hex (k n : Nat) : String := "0x" ++ String.ofList ((List.range k).reverse.map fun j => hexDigit (n / 16 ^ j))

/-- A register's name, `V0` to `VF`. -/
def regName (x : Reg) : String := "V" ++ String.ofList [hexDigit x.val]

/-- A line with one operand. -/
def line1 (mnemonic a : String) : String := mnemonic ++ " " ++ a

/-- A line with two operands. -/
def line2 (mnemonic a b : String) : String := mnemonic ++ " " ++ a ++ ", " ++ b

/-- The line of an instruction in the syntax of R54: mnemonic and operands, which together tell every row apart; `DW` is
the pseudo-instruction of R55. -/
def Instr.text : Instr → String
  | .cls => "CLS"
  | .ret => "RET"
  | .jp nnn => line1 "JP" (hex 3 nnn.toNat)
  | .call nnn => line1 "CALL" (hex 3 nnn.toNat)
  | .seImm x nn => line2 "SE" (regName x) (hex 2 nn.toNat)
  | .sneImm x nn => line2 "SNE" (regName x) (hex 2 nn.toNat)
  | .seReg x y => line2 "SE" (regName x) (regName y)
  | .ldImm x nn => line2 "LD" (regName x) (hex 2 nn.toNat)
  | .addImm x nn => line2 "ADD" (regName x) (hex 2 nn.toNat)
  | .ldReg x y => line2 "LD" (regName x) (regName y)
  | .or x y => line2 "OR" (regName x) (regName y)
  | .and x y => line2 "AND" (regName x) (regName y)
  | .xor x y => line2 "XOR" (regName x) (regName y)
  | .addReg x y => line2 "ADD" (regName x) (regName y)
  | .sub x y => line2 "SUB" (regName x) (regName y)
  | .shr x => line1 "SHR" (regName x)
  | .subn x y => line2 "SUBN" (regName x) (regName y)
  | .shl x => line1 "SHL" (regName x)
  | .sneReg x y => line2 "SNE" (regName x) (regName y)
  | .ldI nnn => line2 "LD" "I" (hex 3 nnn.toNat)
  | .jpV0 nnn => line2 "JP" "V0" (hex 3 nnn.toNat)
  | .rnd x nn => line2 "RND" (regName x) (hex 2 nn.toNat)
  | .drw x y n => line2 "DRW" (regName x) (regName y) ++ ", " ++ hex 1 n.toNat
  | .skp x => line1 "SKP" (regName x)
  | .sknp x => line1 "SKNP" (regName x)
  | .ldVxDT x => line2 "LD" (regName x) "DT"
  | .ldVxK x => line2 "LD" (regName x) "K"
  | .ldDTVx x => line2 "LD" "DT" (regName x)
  | .ldSTVx x => line2 "LD" "ST" (regName x)
  | .addI x => line2 "ADD" "I" (regName x)
  | .ldF x => line2 "LD" "F" (regName x)
  | .ldB x => line2 "LD" "B" (regName x)
  | .ldMemVx x => line2 "LD" "[I]" (regName x)
  | .ldVxMem x => line2 "LD" (regName x) "[I]"
  | .dw w => line1 "DW" (hex 4 w.toNat)

/-! ### The host's entry -/

/-- The word the host means by its number `w` of `nbits` bits: the instruction is one 16-bit word, bit 0 its least
significant bit, and every bit from `nbits` up is 0. -/
def tableWord (nbits w : Nat) : Word := BitVec.ofNat 16 (w % 2 ^ nbits)

/-- What the decoder reads from the table's word, laid out as memory holds it: high byte first (R30). -/
def decodeTableWord (nbits w : Nat) : Option Instr :=
  match decode [highByte (tableWord nbits w), lowByte (tableWord nbits w)] with
  | .ok (i, _) => some i
  | .error _ => none

end Sys2Proof
end

