-- ==== Sys2Proof/Machine/State.lean ====
section
/-! DEFINITION. The machine's state as plain data: everything 10_state.md gives the block, the memory beside it
(R2, R23), the inputs the environment has put on the pins (R6, R24, R25), and the state after reset (R140). -/

namespace Sys2Proof.Machine

/-- `MODE` (R20). -/
inductive Mode where
  /-- Code 0: the next `cpu_tick` fetches and executes. -/
  | running
  /-- Code 1: the last `cpu_tick` was an `Fx0A` that found no key; the next one runs exactly as in `RUNNING`. -/
  | keyWait
  /-- Code 2: `PC` left the addressable range; only `reset` changes anything. -/
  | halted
  /-- Code 3: a fault was raised; only `reset` changes anything. -/
  | faulted
  deriving DecidableEq, Repr

/-- `FAULT_CAUSE` (R21, R121). -/
inductive FaultCause where
  /-- Code 0: no fault since reset. -/
  | none
  /-- Code 1: `2nnn` with ten return addresses stacked. -/
  | stackOverflow
  /-- Code 2: `00EE` with none stacked. -/
  | stackUnderflow
  /-- Code 3: `Dxyn`, `Fx33`, `Fx55` or `Fx65` would touch an address above 0xFFF. -/
  | memRange
  /-- Code 4: the second byte of a fetch would lie above 0xFFF. -/
  | fetchRange
  /-- Code 5: `Ex9E` or `ExA1` with a key number above 15. -/
  | keyRange
  deriving DecidableEq, Repr

/-- The framebuffer: 32 rows (row 0 first) of 64 pixels (column 0 first), `true` is on (R22). -/
abbrev Framebuffer := Vector (Vector Bool 64) 32

/-- The memory as a list of address and byte, in one canonical form (`Memory.wf` in Ops.lean): addresses strictly
rising below 4096, and no byte equal to what an unlisted address reads as. -/
abbrev Memory := List Host.Cell

/-- An input event of the block (R6). -/
inductive Event where
  /-- One fetch, decode and execute, with the key levels and the random byte sampled for it (R60). -/
  | cpuTick (keys : KeyLevels) (rnd : Byte)
  /-- Both timers count down by one (R130). -/
  | timerTick
  /-- Every piece of block state takes its reset value (R140). -/
  | reset
  deriving DecidableEq, Repr

/-- Everything the machine holds. -/
structure State where
  /-- `V0`..`VF` (R10). -/
  v : Vector Byte 16
  /-- `PC` (R14). -/
  pc : Word
  /-- `I` (R16). -/
  i : Word
  /-- `STACK[0..9]` (R17). -/
  stack : Vector Word 10
  /-- `SP`, the depth of the call stack, 0 to 10 (R17). -/
  sp : Fin 11
  /-- `DT` (R19). -/
  dt : Byte
  /-- `ST` (R19). -/
  st : Byte
  /-- `MODE` (R20). -/
  mode : Mode
  /-- `FAULT_CAUSE` (R21). -/
  faultCause : FaultCause
  /-- `FB` (R22). -/
  fb : Framebuffer
  /-- The count of `present` events, an output (R7, R108, R140). -/
  presents : Nat
  /-- `MEM`, outside the block but part of the machine's state (R2, R23). -/
  mem : Memory
  /-- The `keys` input as the last `cpu_tick` sampled it (R24). -/
  keys : KeyLevels
  /-- The `rnd` input of the last `cpu_tick` (R25): the byte the environment gave, or `none` where it gave none, in
  which case the byte is the free value `Config.rndByte draws` (log entry 4). -/
  rnd : Option Byte
  /-- The MODEL's own: the events the environment will send, the next first (R5, R6). When the list is empty the
  environment sends `cpu_tick` events (log entry 2). -/
  events : List Event
  /-- The MODEL's own: how many `cpu_tick` events were sent without a given random byte (log entry 4). -/
  draws : Nat
  deriving DecidableEq, Repr

/-- What `Host.Outcome.fault` could report. It has no constructor: the five faults of R121 are states of this machine
(`MODE = FAULTED`, R122), entered by a next state, and no other condition stops it (log entry 1). Nobody raises it. -/
inductive Fault
  deriving DecidableEq, Repr

/-- What `Host.Outcome.refused` could report. -/
inductive Refusal where
  /-- Raised by `exec` for an instruction that has no meaning yet. No arm of this model raises it. Safe: nothing is
  claimed of such an instruction. -/
  | notModelled (mnemonic : String)
  deriving DecidableEq, Repr

/-- How a step of this machine ends. -/
abbrev Outcome := Host.Outcome State Fault Refusal

/-- The machine right after reset (R140): the block's values as the table there states them, no event count, memory
with nothing listed (the launch image is loaded from outside, log entry 6), and no input yet (log entry 3). -/
def State.reset : State where
  v := Vector.replicate 16 0x00#8
  pc := Config.pcReset
  i := 0x0000#16
  stack := Vector.replicate 10 0x0000#16
  sp := 0
  dt := 0x00#8
  st := 0x00#8
  mode := .running
  faultCause := .none
  fb := Vector.replicate 32 (Vector.replicate 64 false)
  presents := 0
  mem := []
  keys := 0x0000#16
  rnd := .none
  events := []
  draws := 0

end Sys2Proof.Machine
end

