-- ==== Sys2Proof/Machine/Ops.lean ====
section
/-! DEFINITION. The named operations over memory, registers, call stack, framebuffer and timers; raising a fault
(60_exceptions.md R121, R122) and ending an instruction (40_cycle.md R65); fetch (R61), `timer_tick` (R130), `reset`
(R140) and the launch image (R143). Every meaning is written over these. -/

namespace Sys2Proof.Machine

/-! ### Memory (20_memory.md) -/

/-- `MemRead(addr, 1)` of an address in range (R9, R34): the byte listed there, else what an unlisted address reads as.
The callers test the range first (R35). -/
def Memory.read : Memory → Nat → Byte
  | [], _ => Config.unlistedByte
  | (b, v) :: m, a => if a = b then v else Memory.read m a

/-- One entry put in front of a memory whose addresses are larger, left out where it says nothing new. -/
def Memory.entry (a : Nat) (v : Byte) (m : Memory) : Memory :=
  if v = Config.unlistedByte then m else (a, v) :: m

/-- `MemWrite(addr, 1, v)` (R9, R34), keeping the list in its canonical form. -/
def Memory.write : Memory → Nat → Byte → Memory
  | [], a, v => Memory.entry a v []
  | (b, w) :: m, a, v =>
    if a < b then Memory.entry a v ((b, w) :: m)
    else if a = b then Memory.entry a v m
    else (b, w) :: Memory.write m a v

/-- The canonical form: addresses strictly rising, all inside 0x000..0xFFF (R35), no entry that an unlisted address
already reads as. -/
abbrev Memory.wf (m : Memory) : Prop :=
  m.Pairwise (fun p q => p.1 < q.1) ∧ ∀ c ∈ m, c.1 < Config.memSize ∧ c.2 ≠ Config.unlistedByte

/-- Bytes stored at ascending addresses from `a` (R31, R42). -/
def Memory.store (m : Memory) (a : Nat) : List Byte → Memory
  | [] => m
  | v :: vs => Memory.store (m.write a v) (a + 1) vs

/-- The instruction word at `a`: high byte first (R30). -/
def Memory.wordAt (m : Memory) (a : Nat) : Word := wordOfBytes (m.read a) (m.read (a + 1))

/-! ### Registers (R10, R14, R16, R19): one home each, no register is hardwired -/

/-- Read `V[x]`. -/
def State.readV (s : State) (x : Reg) : Byte := s.v[x]

/-- Write `V[x]`; `VF` is written like any other (R10). -/
def State.writeV (s : State) (x : Reg) (b : Byte) : State := { s with v := s.v.set x b }

/-- Write `PC`. -/
def State.writePc (s : State) (a : Word) : State := { s with pc := a }

/-- Write `I`: all 16 bits are kept (R16). -/
def State.writeI (s : State) (a : Word) : State := { s with i := a }

/-- Write `DT`. -/
def State.writeDT (s : State) (b : Byte) : State := { s with dt := b }

/-- Write `ST`. -/
def State.writeST (s : State) (b : Byte) : State := { s with st := b }

/-- Replace all registers (a multi-register load). -/
def State.writeRegs (s : State) (v : Vector Byte 16) : State := { s with v := v }

/-- Replace the memory. -/
def State.writeMem (s : State) (m : Memory) : State := { s with mem := m }

/-- Replace the framebuffer. -/
def State.writeFb (s : State) (fb : Framebuffer) : State := { s with fb := fb }

/-- Emit one `present` event (R108): its only trace is the count (R7). -/
def State.countPresent (s : State) : State := { s with presents := s.presents + 1 }

/-- Write `MODE`. -/
def State.writeMode (s : State) (m : Mode) : State := { s with mode := m }

/-- Write `FAULT_CAUSE`. -/
def State.writeCause (s : State) (c : FaultCause) : State := { s with faultCause := c }

/-- The inputs sampled for one `cpu_tick` (R24, R25, D27). -/
def State.latch (s : State) (keys : KeyLevels) (rnd : Option Byte) : State := { s with keys := keys, rnd := rnd }

/-! ### Modes, causes and their codes -/

/-- The numeric code of `MODE` (R20). -/
def Mode.code : Mode → BitVec 2
  | .running => 0
  | .keyWait => 1
  | .halted => 2
  | .faulted => 3

/-- `HALTED` and `FAULTED`, the modes in which only `reset` has an effect (R66). -/
def Mode.stopped : Mode → Bool
  | .running => false
  | .keyWait => false
  | .halted => true
  | .faulted => true

/-- The numeric code of `FAULT_CAUSE` (R121). -/
def FaultCause.code : FaultCause → BitVec 3
  | .none => 0
  | .stackOverflow => 1
  | .stackUnderflow => 2
  | .memRange => 3
  | .fetchRange => 4
  | .keyRange => 5

/-- The source's `tick(...) -> continue` result (R7). -/
def State.continues (s : State) : Bool := s.mode != .halted

/-! ### Faults (R121, R122) and the end of an instruction (R65) -/

/-- `raise F(info)`: the cause and the value `info` of R121's table. `info` reaches no register (R121). -/
structure Raised where
  /-- The fault. -/
  cause : FaultCause
  /-- The value given with the raise, for diagnostics only. -/
  info : Nat
  deriving DecidableEq, Repr

/-- Taking a fault (R122): `MODE` and `FAULT_CAUSE` are written and nothing else; `PC` keeps the value it had. There is
no handler, and no return but `reset` (R123). -/
def raise (r : Raised) (s : State) : Outcome := .next ((s.writeMode .faulted).writeCause r.cause)

/-- The mode after an instruction that raised nothing (R60, R65): the halt test on the new `PC` comes first. -/
def modeAfter (keyWait : Bool) (pc : Word) : Mode :=
  if Config.memSize ≤ pc.toNat then .halted else if keyWait then .keyWait else .running

/-- The end of an instruction that raised nothing: the mode update of R65. -/
def finish (keyWait : Bool) (s : State) : Outcome := .next (s.writeMode (modeAfter keyWait s.pc))

/-! ### Call stack (R17, R18) -/

/-- `push(a)`: `STACK[SP] <- a; SP <- SP + 1`; `StackOverflow` when ten addresses are stacked. -/
def State.push (s : State) (a : Word) : Except Raised State :=
  if h : s.sp.val < 10 then
    .ok { s with stack := s.stack.set s.sp.val a, sp := ⟨s.sp.val + 1, by omega⟩ }
  else .error ⟨.stackOverflow, s.pc.toNat⟩

/-- `pop()`: `SP <- SP - 1` and the slot there, which keeps its value; `StackUnderflow` when none is stacked. -/
def State.pop (s : State) : Except Raised (Word × State) :=
  if h : 0 < s.sp.val then
    .ok (s.stack[s.sp.val - 1]'(by omega), { s with sp := ⟨s.sp.val - 1, by omega⟩ })
  else .error ⟨.stackUnderflow, s.pc.toNat⟩

/-! ### Framebuffer (R22, R105) -/

/-- `FB[r][c]`; there is no pixel outside the grid. -/
def Framebuffer.pixel (fb : Framebuffer) (r c : Nat) : Bool :=
  if h : r < 32 ∧ c < 64 then fb[r][c] else false

/-- `FB[r][c] <- FB[r][c] ^ 1`. -/
def Framebuffer.toggle (fb : Framebuffer) (r c : Nat) : Framebuffer :=
  if h : r < 32 ∧ c < 64 then fb.set r (fb[r].set c (!fb[r][c])) else fb

/-- All 2048 pixels off (R22, R106). -/
def Framebuffer.blank : Framebuffer := Vector.replicate 32 (Vector.replicate 64 false)

/-! ### Fetch (R61) -/

/-- Two bytes at `PC` and `PC + 1`, high byte first, and `PC` advanced by 2; `FetchRange` when the second byte lies
above 0xFFF, with `PC` unchanged (R36). No alignment is asked (R32). -/
def fetch (s : State) : Except Raised (Word × State) :=
  if 0xFFF < s.pc.toNat + 1 then .error ⟨.fetchRange, s.pc.toNat⟩
  else .ok (s.mem.wordAt s.pc.toNat, s.writePc (s.pc + Config.instrLen))

/-! ### The other events -/

/-- One timer, decremented by 1 and floored at 0 (R19, R130). -/
def countDown (t : Byte) : Byte := if t = 0 then t else t - 1

/-- `timer_tick` (R130): both timers, and nothing else; no effect in `HALTED` and `FAULTED` (R66). -/
def timerTick (s : State) : State :=
  if s.mode.stopped then s else (s.writeDT (countDown s.dt)).writeST (countDown s.st)

/-- `reset` (R140, R141): every piece of block state at its reset value whatever it was; `MEM` is not touched, and the
inputs (and the model's record of the coming ones) are no state of the block. -/
def resetBlock (s : State) : State :=
  { State.reset with mem := s.mem, keys := s.keys, rnd := s.rnd, events := s.events, draws := s.draws }

/-! ### The launch image (R143): what the environment puts in `MEM` before the first `cpu_tick` -/

/-- Bytes placed in memory from outside the block, from address `a`. -/
def State.place (s : State) (a : Nat) (bytes : List Byte) : State := s.writeMem (s.mem.store a bytes)

/-- The boot requirement of R143: the font at 0x050 and the program verbatim from `PC_RESET`. The loader's own checks
(a program over 3584 bytes, N9) are outside the core. -/
def State.launch (s : State) (font program : List Byte) : State :=
  (s.place Config.fontBase font).place Config.pcReset.toNat program

end Sys2Proof.Machine
end

