-- ==== Sys2Proof/Machine/Operands.lean ====
section
/-! DEFINITION. Every operand form the spec gives: immediates, the address `I + k` and its range test, key numbers and
key levels, the random byte, decimal digits, glyph addresses, the register run of `Fx55` and `Fx65`, the skip. -/

namespace Sys2Proof.Machine

/-- `zext_16` of `nnn` (R47). -/
def zext12 (nnn : Addr12) : Word := nnn.setWidth 16

/-- `zext_16` of a byte (R47). -/
def zext8 (b : Byte) : Word := b.setWidth 16

/-- `EA = I + k` as a natural number, never wrapped (R35, R95). -/
def State.ea (s : State) (k : Nat) : Nat := s.i.toNat + k

/-- The range test of `count` bytes from `I`, made before the first write (R35): `MemRange` with the lowest address
above 0xFFF among them (R121). No byte, no fault. -/
def State.checkRange (s : State) (count : Nat) : Option Raised :=
  if 0 < count ∧ 0xFFF < s.ea (count - 1) then some ⟨.memRange, max s.i.toNat 0x1000⟩ else none

/-- The key number in `V[x]` for `Ex9E` and `ExA1`: `KeyRange` above 15 (R114, D9). -/
def State.keyIndex (s : State) (x : Reg) : Except Raised Nat :=
  if 15 < (s.readV x).toNat then .error ⟨.keyRange, (s.readV x).toNat⟩ else .ok (s.readV x).toNat

/-- `KEYS[k]` (R24). -/
def State.keyDown (s : State) (k : Nat) : Bool := s.keys.getLsbD k

/-- The smallest pressed key, for `Fx0A` (R116, D16); none when no key is down. -/
def State.lowestKey (s : State) : Option Nat := (List.range 16).find? s.keyDown

/-- The random byte of this tick (R25): the one the environment gave, else the free value (log entry 4). -/
def State.randomByte (s : State) : Byte := s.rnd.getD (Config.rndByte s.draws)

/-- The decimal digits of a byte, hundreds first (R99). -/
def bcdDigits (b : Byte) : List Byte :=
  [BitVec.ofNat 8 (b.toNat / 100), BitVec.ofNat 8 (b.toNat / 10 % 10), BitVec.ofNat 8 (b.toNat % 10)]

/-- The address of the glyph of the low four bits of a byte (R98, R37). -/
def glyphAddress (b : Byte) : Word :=
  BitVec.ofNat 16 (Config.fontBase + (b &&& 0x0F#8).toNat * Config.glyphBytes)

/-- The values of `V0`..`Vx`, the bytes `Fx55` stores (R100). -/
def State.regRun (s : State) (x : Reg) : List Byte := s.v.toList.take (x.val + 1)

/-- The registers after `V[k] <- MemRead(I + k, 1)` for `k` in `0 .. x` (R101). -/
def State.loadedRegs (s : State) (x : Reg) : Vector Byte 16 :=
  Vector.ofFn fun k : Reg => if k ≤ x then s.mem.read (s.ea k.val) else s.readV k

/-- Skip the next instruction when the condition holds: `PC <- PC + 2` (R75, R79). -/
def State.skipIf (c : Bool) (s : State) : State :=
  if c then s.writePc (s.pc + Config.instrLen) else s

end Sys2Proof.Machine
end

