-- ==== Sys2Proof/Machine/Flags.lean ====
section
/-! DEFINITION. Every value the spec writes to `VF` as a flag (10_state.md R12), and the order of the two writes of
`8xy4`, `8xy5`, `8xy6`, `8xy7`, `8xyE` (R13, R94). -/

namespace Sys2Proof.Machine

/-- A flag is the byte 1 or 0. -/
def flag (b : Bool) : Byte := if b then 1 else 0

/-- Carry of `8xy4`: `a + b > 255` (R87). -/
def carry (a b : Byte) : Byte := flag (decide (255 < a.toNat + b.toNat))

/-- Not-borrow of `8xy5` and `8xy7`: minuend at least subtrahend (R88, R90). -/
def noBorrow (minuend subtrahend : Byte) : Byte := flag (decide (subtrahend.toNat ≤ minuend.toNat))

/-- The bit `8xy6` shifts out: bit 0 of the value before the shift (R89). -/
def lowBitOut (a : Byte) : Byte := flag (a.getLsbD 0)

/-- The bit `8xyE` shifts out: bit 7 of the value before the shift (R91). -/
def highBitOut (a : Byte) : Byte := flag (a.getLsbD 7)

/-- `Fx1E`: the new `I` lies above 0xFFF (R97). -/
def beyondMemory (i : Word) : Byte := flag (decide (0xFFF < i.toNat))

/-- `Dxyn`: some pixel went from on to off (R107). -/
def collisionFlag (c : Bool) : Byte := flag c

/-- Flag first, then result (R13, R94): with `x = F` the result overwrites the flag. Both were computed from the
operands as read at the start (D12). -/
def State.writeFlagThenResult (s : State) (x : Reg) (f result : Byte) : State := (s.writeV Reg.vf f).writeV x result

end Sys2Proof.Machine
end

