-- ==== Sys2Proof/Machine/Alu.lean ====
section
/-! DEFINITION. The meanings of 42_alu.md (R80 to R94). Operands are read once, from the state before any write
(R94, D12); sums and differences wrap modulo 256 and never trap (R93). -/

namespace Sys2Proof.Machine

/-- `6xnn` LD (R81). -/
def execLdImm (x : Reg) (nn : Byte) (s : State) : Outcome := finish false (s.writeV x nn)

/-- `7xnn` ADD (R82): no flag. -/
def execAddImm (x : Reg) (nn : Byte) (s : State) : Outcome := finish false (s.writeV x (s.readV x + nn))

/-- `8xy0` LD (R83). -/
def execLdReg (x y : Reg) (s : State) : Outcome := finish false (s.writeV x (s.readV y))

/-- `8xy1` OR (R84): `VF` is not written (D13). -/
def execOr (x y : Reg) (s : State) : Outcome := finish false (s.writeV x (s.readV x ||| s.readV y))

/-- `8xy2` AND (R85). -/
def execAnd (x y : Reg) (s : State) : Outcome := finish false (s.writeV x (s.readV x &&& s.readV y))

/-- `8xy3` XOR (R86). -/
def execXor (x y : Reg) (s : State) : Outcome := finish false (s.writeV x (s.readV x ^^^ s.readV y))

/-- `8xy4` ADD (R87). -/
def execAddReg (x y : Reg) (s : State) : Outcome :=
  finish false (s.writeFlagThenResult x (carry (s.readV x) (s.readV y)) (s.readV x + s.readV y))

/-- `8xy5` SUB (R88): `V[x]` is the minuend. -/
def execSub (x y : Reg) (s : State) : Outcome :=
  finish false (s.writeFlagThenResult x (noBorrow (s.readV x) (s.readV y)) (s.readV x - s.readV y))

/-- `8xy6` SHR (R89): `V[x]` is shifted in place (D11). -/
def execShr (x : Reg) (s : State) : Outcome :=
  finish false (s.writeFlagThenResult x (lowBitOut (s.readV x)) (s.readV x >>> 1))

/-- `8xy7` SUBN (R90): `V[y]` is the minuend. -/
def execSubn (x y : Reg) (s : State) : Outcome :=
  finish false (s.writeFlagThenResult x (noBorrow (s.readV y) (s.readV x)) (s.readV y - s.readV x))

/-- `8xyE` SHL (R91): `V[x]` is shifted in place (D11). -/
def execShl (x : Reg) (s : State) : Outcome :=
  finish false (s.writeFlagThenResult x (highBitOut (s.readV x)) (s.readV x <<< 1))

/-- `Cxnn` RND (R92). -/
def execRnd (x : Reg) (nn : Byte) (s : State) : Outcome := finish false (s.writeV x (s.randomByte &&& nn))

end Sys2Proof.Machine
end

