-- ==== Sys2Proof/Machine/Control.lean ====
section
/-! DEFINITION. The meanings of 41_control_flow.md (R70 to R79) and of the no-operation (40_cycle.md R64). In every
meaning of this model `PC` on entry is the address of the instruction plus 2 (R61), and the state it answers is the
one after the mode update of R65. -/

namespace Sys2Proof.Machine

/-- `00EE` RET (R73). -/
def execRet (s : State) : Outcome :=
  match s.pop with
  | .error r => raise r s
  | .ok (a, s') => finish false (s'.writePc a)

/-- `1nnn` JP (R71). -/
def execJp (nnn : Addr12) (s : State) : Outcome := finish false (s.writePc (zext12 nnn))

/-- `2nnn` CALL (R72). -/
def execCall (nnn : Addr12) (s : State) : Outcome :=
  match s.push s.pc with
  | .error r => raise r s
  | .ok s' => finish false (s'.writePc (zext12 nnn))

/-- `3xnn` SE (R75). -/
def execSeImm (x : Reg) (nn : Byte) (s : State) : Outcome := finish false (s.skipIf (s.readV x == nn))

/-- `4xnn` SNE (R76). -/
def execSneImm (x : Reg) (nn : Byte) (s : State) : Outcome := finish false (s.skipIf (s.readV x != nn))

/-- `5xy0` SE (R77). -/
def execSeReg (x y : Reg) (s : State) : Outcome := finish false (s.skipIf (s.readV x == s.readV y))

/-- `9xy0` SNE (R78). -/
def execSneReg (x y : Reg) (s : State) : Outcome := finish false (s.skipIf (s.readV x != s.readV y))

/-- `Bnnn` JP V0 (R74): the sum is not reduced modulo 4096. -/
def execJpV0 (nnn : Addr12) (s : State) : Outcome :=
  finish false (s.writePc (zext12 nnn + zext8 (s.readV 0)))

/-- `DW w`, the no-operation (R64): the fetch has advanced `PC`, and nothing else happens. -/
def execDw (_w : Word) (s : State) : Outcome := finish false s

end Sys2Proof.Machine
end

