-- ==== Sys2Proof/Machine/Display.lean ====
section
/-! DEFINITION. The meanings of 44_display.md (R105 to R109): clear, and the sprite draw by XOR with clipping. -/

namespace Sys2Proof.Machine

/-- The framebuffer as a draw goes on, with the collision so far (R26 b). -/
abbrev Canvas := Framebuffer × Bool

/-- One set sprite bit (R107): an on pixel marks a collision; the pixel is toggled. -/
def plot (k : Canvas) (r c : Nat) : Canvas := (k.1.toggle r c, k.2 || k.1.pixel r c)

/-- The columns of one sprite row, bit 7 leftmost; the loop stops at the right boundary (R107, D22). -/
def drawCols (b : Byte) (r x0 : Nat) : List Nat → Canvas → Canvas
  | [], k => k
  | col :: cols, k =>
    if Config.fbWidth ≤ x0 + col then k
    else drawCols b r x0 cols (if b.getLsbD (7 - col) then plot k r (x0 + col) else k)

/-- The rows of a sprite at address `a`; the loop stops at the bottom boundary (R107, D22). -/
def drawRows (m : Memory) (a x0 y0 : Nat) : List Nat → Canvas → Canvas
  | [], k => k
  | row :: rows, k =>
    if Config.fbHeight ≤ y0 + row then k
    else drawRows m a x0 y0 rows (drawCols (m.read (a + row)) (y0 + row) x0 (List.range 8) k)

/-- The column of a draw: `V[x] mod 64`. -/
def State.drawX (s : State) (x : Reg) : Nat := (s.readV x).toNat % Config.fbWidth

/-- The row of a draw: `V[y] mod 32`. -/
def State.drawY (s : State) (y : Reg) : Nat := (s.readV y).toNat % Config.fbHeight

/-- The rows that are not clipped at the bottom, the ones that are read (R107). -/
def State.drawCount (s : State) (y : Reg) (n : BitVec 4) : Nat := min n.toNat (Config.fbHeight - s.drawY y)

/-- The framebuffer and collision a draw leaves. -/
def State.drawn (s : State) (x y : Reg) (n : BitVec 4) : Canvas :=
  drawRows s.mem s.i.toNat (s.drawX x) (s.drawY y) (List.range n.toNat) (s.fb, false)

/-- `00E0` CLS (R106): no flag, no `present` (D21). -/
def execCls (s : State) : Outcome := finish false (s.writeFb Framebuffer.blank)

/-- `Dxyn` DRW (R107): the range of the rows read is tested first; `VF` is written last; one `present` (R108). -/
def execDrw (x y : Reg) (n : BitVec 4) (s : State) : Outcome :=
  match s.checkRange (s.drawCount y n) with
  | some r => raise r s
  | none =>
    let k := s.drawn x y n
    finish false ((s.writeFb k.1).writeV Reg.vf (collisionFlag k.2)).countPresent

end Sys2Proof.Machine
end

