-- ==== Sys2Proof/Machine/IndexMemory.lean ====
section
/-! DEFINITION. The meanings of 43_index_memory.md (R95 to R102). No load or store changes `I` (R95, D17), and the
range of all the bytes is tested before the first write (R35). -/

namespace Sys2Proof.Machine

/-- `Annn` LD I (R96). -/
def execLdI (nnn : Addr12) (s : State) : Outcome := finish false (s.writeI (zext12 nnn))

/-- `Fx1E` ADD I (R97): `V[x]` is read before `VF` is written, and the flag is of the new, wrapped `I` (D15). -/
def execAddI (x : Reg) (s : State) : Outcome :=
  let t := s.i + zext8 (s.readV x)
  finish false ((s.writeI t).writeV Reg.vf (beyondMemory t))

/-- `Fx29` LD F (R98): an address only; memory is not accessed. -/
def execLdF (x : Reg) (s : State) : Outcome := finish false (s.writeI (glyphAddress (s.readV x)))

/-- `Fx33` LD B (R99). -/
def execLdB (x : Reg) (s : State) : Outcome :=
  match s.checkRange 3 with
  | some r => raise r s
  | none => finish false (s.writeMem (s.mem.store s.i.toNat (bcdDigits (s.readV x))))

/-- `Fx55` LD [I], Vx (R100). -/
def execLdMemVx (x : Reg) (s : State) : Outcome :=
  match s.checkRange (x.val + 1) with
  | some r => raise r s
  | none => finish false (s.writeMem (s.mem.store s.i.toNat (s.regRun x)))

/-- `Fx65` LD Vx, [I] (R101). -/
def execLdVxMem (x : Reg) (s : State) : Outcome :=
  match s.checkRange (x.val + 1) with
  | some r => raise r s
  | none => finish false (s.writeRegs (s.loadedRegs x))

end Sys2Proof.Machine
end

