-- ==== Sys2Proof/Machine/TimerKeypad.lean ====
section
/-! DEFINITION. The meanings of 45_timer_keypad.md (R110 to R117). The timers count down by `timer_tick` only, and the
keypad is read, never written (R117). -/

namespace Sys2Proof.Machine

/-- `Fx07` LD Vx, DT (R111). -/
def execLdVxDT (x : Reg) (s : State) : Outcome := finish false (s.writeV x s.dt)

/-- `Fx15` LD DT, Vx (R112). -/
def execLdDTVx (x : Reg) (s : State) : Outcome := finish false (s.writeDT (s.readV x))

/-- `Fx18` LD ST, Vx (R113). -/
def execLdSTVx (x : Reg) (s : State) : Outcome := finish false (s.writeST (s.readV x))

/-- `Ex9E` SKP (R114). -/
def execSkp (x : Reg) (s : State) : Outcome :=
  match s.keyIndex x with
  | .error r => raise r s
  | .ok k => finish false (s.skipIf (s.keyDown k))

/-- `ExA1` SKNP (R115). -/
def execSknp (x : Reg) (s : State) : Outcome :=
  match s.keyIndex x with
  | .error r => raise r s
  | .ok k => finish false (s.skipIf (!s.keyDown k))

/-- `Fx0A` LD Vx, K (R116): with no key down `PC` goes back to this instruction and the machine waits. -/
def execLdVxK (x : Reg) (s : State) : Outcome :=
  match s.lowestKey with
  | none => finish true (s.writePc (s.pc - Config.instrLen))
  | some k => finish false (s.writeV x (BitVec.ofNat 8 k))

end Sys2Proof.Machine
end

