-- ==== Sys2Proof/Machine/Cycle.lean ====
section
/-! DEFINITION. The events of the block (00_scope.md R6) as steps: `cpu_tick` (40_cycle.md R60), `timer_tick` and
`reset`; which event comes next; and the order of events presented together (60_exceptions.md R127). -/

namespace Sys2Proof.Machine

/-- Fetch, decode and execute (R60 to R63), with the tick's inputs already sampled. The mode update of R65 is the end
of every meaning (`finish`), and a raise skips it. -/
def runInstruction (s : State) : Outcome :=
  match fetch s with
  | .error r => raise r s
  | .ok (w, s') => exec (decodeWord w) s'

/-- `cpu_tick(keys, rnd)` (R60). In `HALTED` and `FAULTED` it changes nothing (R66); `KEY_WAIT` runs as `RUNNING` does
(R67). -/
def cpuTick (keys : KeyLevels) (rnd : Option Byte) (s : State) : Outcome :=
  if s.mode.stopped then .next s else runInstruction (s.latch keys rnd)

/-- The event the environment sends next, taken off the list of coming ones. With none listed it sends a `cpu_tick`
whose keys are as they were last sampled and whose random byte is not given (log entries 2, 4). -/
def nextEvent (s : State) : Option Event × State :=
  match s.events with
  | [] => (none, { s with draws := s.draws + 1 })
  | e :: rest => (some e, { s with events := rest })

/-- One event, from start to end (R5). -/
def perform (e : Option Event) (s : State) : Outcome :=
  match e with
  | none => cpuTick s.keys none s
  | some (.cpuTick keys rnd) => cpuTick keys (some rnd) s
  | some .timerTick => .next (timerTick s)
  | some .reset => .next (resetBlock s)

/-- One step of the machine: the next event. -/
def eventStep (s : State) : Outcome := perform (nextEvent s).1 (nextEvent s).2

/-! ### Events presented in one clock period (R127) -/

/-- What the environment presents in one clock period. -/
structure Presented where
  /-- A `cpu_tick` with its inputs, if there is one. -/
  cpu : Option (KeyLevels × Byte)
  /-- Whether there is a `timer_tick`. -/
  timer : Bool
  /-- Whether there is a `reset`. -/
  reset : Bool
  deriving DecidableEq, Repr

/-- The order the block performs them in (R127, D19, D28): a `reset` drops the others; otherwise the `cpu_tick` comes
first and the `timer_tick` second. -/
def Presented.serialise (p : Presented) : List Event :=
  if p.reset then [.reset]
  else (p.cpu.map fun k => Event.cpuTick k.1 k.2).toList ++ (if p.timer then [.timerTick] else [])

/-- The environment presents one period's events after those it has presented before. -/
def State.offer (s : State) (p : Presented) : State := { s with events := s.events ++ p.serialise }

/-! ### Placing an instruction where the next step fetches it -/

/-- The coming events with the ones before the first `cpu_tick` left out: the next step is a `cpu_tick`. -/
def tickFirst : List Event → List Event
  | [] => []
  | .cpuTick keys rnd :: es => .cpuTick keys rnd :: es
  | .timerTick :: es => tickFirst es
  | .reset :: es => tickFirst es

/-- The state made ready to fetch: a stopped machine runs again, a `PC` whose fetch would be out of range is put at the
reset vector, and the next event is a `cpu_tick`. A machine that would fetch next is left as it is. -/
def State.readyToFetch (s : State) : State :=
  let s := if s.mode.stopped then (s.writeMode .running).writeCause .none else s
  let s := if 0xFFF < s.pc.toNat + 1 then s.writePc Config.pcReset else s
  { s with events := tickFirst s.events }

/-- The word stored where the next step fetches (log entry 6): it stands for the loader of R143. -/
def State.placeNext (s : State) (w : Word) : State :=
  s.readyToFetch.place s.readyToFetch.pc.toNat [highByte w, lowByte w]

end Sys2Proof.Machine
end

