-- ==== Sys2Proof/Machine/Step.lean ====
section
/-! DEFINITION. The step of the machine, and the placing of one instruction where the next step fetches it. -/

namespace Sys2Proof.Machine

/-- One step: the next event, performed from start to end (R5, R6). -/
def step : State → Host.Outcome State Fault Refusal := eventStep

/-- `s` with the instruction of the opcode table's word `w` (of `nbits` bits) stored where `step` fetches next, and
whatever else makes the very next step fetch it. -/
def State.withFetchWord (s : State) (nbits w : Nat) : State := s.placeNext (tableWord nbits w)

end Sys2Proof.Machine
end

