-- ==== Sys2Proof/Safety.lean ====
section
/-! DEFINITION. The terms claims are stated in: what a good run is (60_exceptions.md R125), the invariant of every
reachable state, what an instruction leaves alone, the fault conditions of R121, the writers of each piece of state
(10_state.md) and the closed form of a sprite (44_display.md R107). They are written from the spec's tables, not from
the meanings. -/

namespace Sys2Proof.Machine

/-! ### Runs -/

/-- R125: a run has gone wrong iff `MODE = FAULTED`. -/
def State.wrong (s : State) : Prop := s.mode = .faulted

/-- R8, R125: a run has ended iff `MODE` is `HALTED` or `FAULTED`. -/
def State.ended (s : State) : Prop := s.mode = .halted ∨ s.mode = .faulted

/-- The block's outputs (R7). -/
def State.outputs (s : State) : Framebuffer × Nat × Mode × FaultCause := (s.fb, s.presents, s.mode, s.faultCause)

/-- What holds of every state a run from reset and a launch image reaches. -/
structure State.Inv (s : State) : Prop where
  /-- The memory list is in its canonical form. -/
  memCanonical : s.mem.wf
  /-- R36: while the machine runs, `PC` is inside the memory. -/
  runningPc : s.mode.stopped = false → s.pc.toNat ≤ 0xFFF
  /-- R125: halted means `PC` is outside, between 0x1000 and 0x10FE. -/
  haltedPc : s.mode = .halted → 0x1000 ≤ s.pc.toNat ∧ s.pc.toNat ≤ 0x10FE
  /-- R122: the `PC` of a faulted machine is at most the address after the last instruction. -/
  faultedPc : s.mode = .faulted → s.pc.toNat ≤ 0x1000
  /-- R21, R122: a cause is held exactly in `FAULTED`. -/
  causeInFault : s.mode = .faulted ↔ s.faultCause ≠ .none
  /-- R14, R72: a stacked return address is the `PC` of a running instruction, at most 0x1000. -/
  returnAddresses : ∀ (k : Nat) (h : k < 10), k < s.sp.val → (s.stack[k]'h).toNat ≤ 0x1000
  /-- R20: in `KEY_WAIT` the next instruction is an `Fx0A`. -/
  keyWaitAtFx0A : s.mode = .keyWait → s.pc.toNat + 1 ≤ 0xFFF ∧ ∃ x, decodeWord (s.mem.wordAt s.pc.toNat) = .ldVxK x

/-! ### Frames -/

/-- What an instruction may change; nothing, unless a field says otherwise. -/
structure Touched where
  /-- The general registers that may change. -/
  v : Reg → Bool := fun _ => false
  /-- Whether `PC` may change after the fetch. -/
  pc : Bool := false
  /-- Whether `I` may change. -/
  i : Bool := false
  /-- The call-stack slots that may change. -/
  slot : Nat → Bool := fun _ => false
  /-- Whether `SP` may change. -/
  sp : Bool := false
  /-- Whether `DT` may change. -/
  dt : Bool := false
  /-- Whether `ST` may change. -/
  st : Bool := false
  /-- Whether `FAULT_CAUSE` may change. -/
  cause : Bool := false
  /-- Whether pixels may change. -/
  fb : Bool := false
  /-- Whether `present` events may be counted. -/
  presents : Bool := false
  /-- The addresses whose byte may change. -/
  mem : Nat → Bool := fun _ => false

/-- `t` differs from `s` at most in what `w` names and in `MODE` (which every `cpu_tick` writes, R20). -/
structure Frame (w : Touched) (s t : State) : Prop where
  regs : ∀ r, w.v r = false → t.readV r = s.readV r
  pc : w.pc = false → t.pc = s.pc
  i : w.i = false → t.i = s.i
  stack : ∀ (k : Nat) (h : k < 10), w.slot k = false → t.stack[k]'h = s.stack[k]'h
  sp : w.sp = false → t.sp = s.sp
  dt : w.dt = false → t.dt = s.dt
  st : w.st = false → t.st = s.st
  cause : w.cause = false → t.faultCause = s.faultCause
  fb : w.fb = false → t.fb = s.fb
  presents : w.presents = false → t.presents = s.presents
  mem : ∀ a, w.mem a = false → t.mem.read a = s.mem.read a
  inputs : t.keys = s.keys ∧ t.rnd = s.rnd ∧ t.events = s.events ∧ t.draws = s.draws

/-- The mode of R65 after an instruction that raised nothing and does not wait: halted exactly when `PC` has reached
0x1000 or more (the boundary is decision D5). -/
def ModeFromPc (t : State) : Prop :=
  (0x1000 ≤ t.pc.toNat → t.mode = .halted) ∧ (t.pc.toNat < 0x1000 → t.mode = .running)

/-- R122: the state after fault `c` is raised in `s`: `MODE`, `FAULT_CAUSE`, and nothing else. -/
def faultedWith (c : FaultCause) (s : State) : State := { s with mode := .faulted, faultCause := c }

/-! ### Fault conditions -/

/-- R33: how many bytes from `I` an instruction reads or writes besides its own fetch; for `Dxyn` the rows that are
not clipped. -/
def bytesTouched (i : Instr) (s : State) : Nat :=
  match i with
  | .drw _ y n => min n.toNat (32 - (s.readV y).toNat % 32)
  | .ldB _ => 3
  | .ldMemVx x => x.val + 1
  | .ldVxMem x => x.val + 1
  | _ => 0

/-- Some byte the instruction touches lies above 0xFFF (R35, R121). -/
def touchesBeyondMemory (i : Instr) (s : State) : Prop := ∃ k, k < bytesTouched i s ∧ 0xFFF < s.i.toNat + k

/-- R121: when an instruction raises a fault, and which (each instruction has at most one, R124). -/
def RaisesFault (i : Instr) (s : State) (c : FaultCause) : Prop :=
  match i with
  | .call _ => s.sp.val = 10 ∧ c = .stackOverflow
  | .ret => s.sp.val = 0 ∧ c = .stackUnderflow
  | .drw _ _ _ | .ldB _ | .ldMemVx _ | .ldVxMem _ => touchesBeyondMemory i s ∧ c = .memRange
  | .skp x | .sknp x => 15 < (s.readV x).toNat ∧ c = .keyRange
  | _ => False

/-! ### Who writes what (10_state.md, the summary and R12) -/

/-- R12: the instructions that write `VF` as a side effect. -/
def writesFlag : Instr → Bool
  | .addReg _ _ | .sub _ _ | .shr _ | .subn _ _ | .shl _ | .drw _ _ _ | .addI _ => true
  | _ => false

/-- The registers an instruction names as its destination. -/
def namesDestination : Instr → Reg → Bool
  | .ldImm x _, r | .addImm x _, r | .ldReg x _, r | .or x _, r | .and x _, r | .xor x _, r | .addReg x _, r
  | .sub x _, r | .shr x, r | .subn x _, r | .shl x, r | .rnd x _, r | .ldVxDT x, r | .ldVxK x, r => r == x
  | .ldVxMem x, r => decide (r ≤ x)
  | _, _ => false

/-! ### Sprites (R107) -/

/-- The bit a sprite of `n` rows at address `a`, with top-left pixel in column `x0` and row `y0`, has for the pixel in
row `r` and column `c`: row `k` is the byte at `a + k`, and its bit 7 is the leftmost. -/
def spriteBit (m : Memory) (a x0 y0 n r c : Nat) : Bool :=
  decide (y0 ≤ r ∧ r < y0 + n ∧ x0 ≤ c ∧ c < x0 + 8) && (m.read (a + (r - y0))).getLsbD (7 - (c - x0))

/-- The sprite bit of `Dxyn` in a state: the starting coordinates wrap, the pixels do not. -/
def drwBit (s : State) (x y : Reg) (n : BitVec 4) (r c : Nat) : Bool :=
  spriteBit s.mem s.i.toNat ((s.readV x).toNat % 64) ((s.readV y).toNat % 32) n.toNat r c

/-! ### Call-stack slots above the depth (R17) -/

/-- The two states differ at most in call-stack slots at or above the depth. -/
def SameLiveStack (s s' : State) : Prop :=
  s' = { s with stack := s'.stack } ∧ ∀ (k : Nat) (h : k < 10), k < s.sp.val → s'.stack[k]'h = s.stack[k]'h

end Sys2Proof.Machine
end

