-- ==== Sys2Proof/Certificates/Slice0/Obligations.lean ====
section
/-! DEFINITION. The statements for the provers. Where a clause rests on a decision of 92_eei_decisions.md (the spec's own
choice) or on a convention of this model, the docstring names it, and the statement's basis is 'derived'. `Frame`,
`ModeFromPc`, `faultedWith`, `RaisesFault`, `spriteBit` and the other terms are in Sys2Proof/Safety.lean. -/

open Sys2Proof Sys2Proof.Machine

/-! ## Encoding -/

/-- Words written out from the encodings of R50, each decoding to the instruction it stands for: R68's own `6A05`, and
one of each format and of each family with a discriminant. -/
def Obligations.SpecWordsDecode : Prop :=
  decode [0x6A#8, 0x05#8] = .ok (.ldImm 10 0x05#8, []) ∧
  decode [0x00#8, 0xE0#8] = .ok (.cls, []) ∧
  decode [0x1A#8, 0xBC#8] = .ok (.jp 0xABC#12, []) ∧
  decode [0x81#8, 0x25#8] = .ok (.sub 1 2, []) ∧
  decode [0xD1#8, 0x25#8] = .ok (.drw 1 2 5#4, []) ∧
  decode [0xE1#8, 0x9E#8] = .ok (.skp 1, []) ∧
  decode [0xF2#8, 0x55#8] = .ok (.ldMemVx 2, []) ∧
  decode [0x51#8, 0x21#8] = .ok (.dw 0x5121#16, [])

/-- R62: decode cuts the six fields from the word, whatever the word and with no state: family 15 to 12, `x` 11 to 8,
`y` 7 to 4, `n` 3 to 0, `nn` 7 to 0, `nnn` 11 to 0. -/
def Obligations.DecodeCutsSixFields : Prop :=
  ∀ w : Word,
    (family w).toNat = w.toNat / 4096 ∧ (fieldX w).val = w.toNat / 256 % 16 ∧ (fieldY w).val = w.toNat / 16 % 16 ∧
    (fieldN w).toNat = w.toNat % 16 ∧ (fieldNN w).toNat = w.toNat % 256 ∧ (fieldNNN w).toNat = w.toNat % 4096

/-- Every well-formed instruction is read back from its two bytes, whatever follows them (R45, R50). -/
def Obligations.EncodeDecodeRoundTrip : Prop :=
  ∀ (i : Instr) (rest : List Byte), i.wf = true → decode (encodeBytes i ++ rest) = .ok (i, rest)

/-- Every word decodes to a well-formed instruction whose encoding is the word again, but for the four `y` bits that
`8xy6` and `8xyE` ignore (decision D11), which the encoder writes as 0. -/
def Obligations.DecodedWordReencodes : Prop :=
  ∀ w : Word, (decodeWord w).wf = true ∧
    encode (decodeWord w) = if w &&& 0xF00F#16 = 0x8006#16 ∨ w &&& 0xF00F#16 = 0x800E#16 then w &&& 0xFF0F#16 else w

/-- R49: a word is a row's instruction iff the word masked is the row's match, and no word matches two rows. -/
def Obligations.DecoderIsMatchAndMask : Prop :=
  (∀ r ∈ opcodeTable, ∀ w : Word, w &&& r.mask = r.value ↔ (decodeWord w).row = some r) ∧
  (∀ r ∈ opcodeTable, ∀ r' ∈ opcodeTable, ∀ w : Word, w &&& r.mask = r.value → w &&& r'.mask = r'.value → r = r')

/-- R51: the words that are no-operations are exactly these, family by family (`n` in families 5 and 9: decision
D14; the digits of family 8: decision D10). -/
def Obligations.NoOperationWords : Prop :=
  ∀ w : Word, decodeWord w = .dw w ↔
    (family w = 0x0#4 ∧ fieldNNN w ≠ 0x0E0#12 ∧ fieldNNN w ≠ 0x0EE#12) ∨
    (family w = 0x5#4 ∧ fieldN w ≠ 0#4) ∨
    (family w = 0x8#4 ∧ fieldN w ∈ [0x8#4, 0x9#4, 0xA#4, 0xB#4, 0xC#4, 0xD#4, 0xF#4]) ∨
    (family w = 0x9#4 ∧ fieldN w ≠ 0#4) ∨
    (family w = 0xE#4 ∧ fieldNN w ≠ 0x9E#8 ∧ fieldNN w ≠ 0xA1#8) ∨
    (family w = 0xF#4 ∧
      fieldNN w ∉ [0x07#8, 0x0A#8, 0x15#8, 0x18#8, 0x1E#8, 0x29#8, 0x33#8, 0x55#8, 0x65#8])

/-! ## The step -/

/-- R30: the byte at `PC` is bits 15 to 8 of the fetched word and the byte at `PC + 1` bits 7 to 0; R61: `PC` advances
by 2, at an odd address too (R32), and a fetch changes nothing else. -/
def Obligations.FetchIsBigEndian : Prop :=
  ∀ s : State, s.pc.toNat + 1 ≤ 0xFFF → ∃ w t, fetch s = .ok (w, t) ∧
    w.toNat = (s.mem.read s.pc.toNat).toNat * 256 + (s.mem.read (s.pc.toNat + 1)).toNat ∧
    t = { s with pc := t.pc } ∧ t.pc.toNat = s.pc.toNat + 2

/-- R60 to R63: when the machine is not stopped and the two bytes at `PC` decode to `i`, a step that performs a
`cpu_tick` is `exec` of `i`, in the state with the tick's inputs sampled and `PC` past the instruction. That a step
without a listed event is a `cpu_tick` with held keys and a free random byte is this model's choice (log entries 2, 4). -/
def Obligations.StepRunsDecodedInstruction : Prop :=
  ∀ (s : State) (i : Instr), s.mode.stopped = false → s.pc.toNat + 1 ≤ 0xFFF →
    decode [s.mem.read s.pc.toNat, s.mem.read (s.pc.toNat + 1)] = .ok (i, []) →
    (∀ keys rnd rest, s.events = .cpuTick keys rnd :: rest →
      step s = exec i { s with events := rest, keys := keys, rnd := some rnd, pc := s.pc + 2 }) ∧
    (s.events = [] → step s = exec i { s with draws := s.draws + 1, rnd := none, pc := s.pc + 2 })

/-- R36, R61: a `cpu_tick` whose second byte would lie above 0xFFF raises `FetchRange` with `info = PC`; `PC` is left,
and nothing but `MODE` and `FAULT_CAUSE` changes (decisions D6, D8). -/
def Obligations.FetchRangeFaultAtTopOfMemory : Prop :=
  ∀ (s : State) (keys : KeyLevels) (rnd : Byte) (rest : List Event), s.mode.stopped = false →
    0xFFF < s.pc.toNat + 1 → s.events = .cpuTick keys rnd :: rest →
    fetch s = .error ⟨.fetchRange, s.pc.toNat⟩ ∧
    step s = .next (faultedWith .fetchRange { s with events := rest, keys := keys, rnd := some rnd })

/-- R51, R63: every instruction in every state, and every event, answers a next state: no encoding is illegal, and
every fault of R121 is a state of the machine (log entry 1). -/
def Obligations.EveryStepAnswersNextState : Prop :=
  (∀ (i : Instr) (s : State), ∃ t, exec i s = .next t) ∧ (∀ s : State, ∃ t, step s = .next t)

/-- R140, R11, R14: the values right after reset (but `PC` and `FB`, the spec's decisions D3, D4, D6, D21). -/
def Obligations.ResetStateValues : Prop :=
  (∀ r, State.reset.readV r = 0) ∧ State.reset.pc = 0x0200#16 ∧ State.reset.i = 0 ∧ State.reset.sp = 0 ∧
  (∀ (k : Nat) (h : k < 10), State.reset.stack[k]'h = 0) ∧ State.reset.dt = 0 ∧ State.reset.st = 0 ∧
  State.reset.mode = .running ∧ State.reset.faultCause = .none ∧ State.reset.faultCause.code = 0 ∧
  (∀ r c, State.reset.fb.pixel r c = false) ∧ State.reset.presents = 0

/-- R140, R141: a `reset` puts every piece of block state at its reset value whatever it was, and does not touch `MEM`
(decisions D3, D26, D28). -/
def Obligations.ResetEventRestoresBlock : Prop :=
  ∀ (s : State) (rest : List Event), s.events = .reset :: rest → ∃ t, step s = .next t ∧ t.mem = s.mem ∧
    (∀ r, t.readV r = 0) ∧ t.pc = 0x0200#16 ∧ t.i = 0 ∧ t.sp = 0 ∧ (∀ (k : Nat) (h : k < 10), t.stack[k]'h = 0) ∧
    t.dt = 0 ∧ t.st = 0 ∧ t.mode = .running ∧ t.faultCause = .none ∧ (∀ r c, t.fb.pixel r c = false) ∧
    t.presents = 0 ∧ t.keys = s.keys ∧ t.rnd = s.rnd ∧ t.events = rest

/-- The invariant `State.Inv` holds right after reset. -/
def Obligations.ResetStateIsGood : Prop := State.reset.Inv

/-- Every event keeps the invariant, from every state that has it: the memory stays canonical, `PC` is inside the
memory while the machine runs and in 0x1000..0x10FE when halted (R15, R36, R125), a cause is held exactly in `FAULTED`
(R21), stacked return addresses stay at most 0x1000, and in `KEY_WAIT` the next instruction is an `Fx0A` (R20). -/
def Obligations.StepKeepsGoodState : Prop :=
  ∀ s t : State, s.Inv → step s = .next t → t.Inv

/-- R15: on no run from a good state does `PC` pass 0x10FE, and while the machine is not stopped it points at a byte of
the memory. -/
def Obligations.PcStaysBoundedOnRuns : Prop :=
  ∀ (n : Nat) (s t : State), s.Inv → core.run n s = .next t →
    t.pc.toNat ≤ 0x10FE ∧ (t.mode.stopped = false → t.pc.toNat ≤ 0xFFF)

/-- R66, R123 (decision D20): in `HALTED` and `FAULTED` no `cpu_tick` and no `timer_tick` has any effect, however many
come; only the environment's own record of coming events moves on. -/
def Obligations.StoppedMachineIgnoresTicks : Prop :=
  ∀ (n : Nat) (s : State), s.mode.stopped = true → Event.reset ∉ s.events →
    ∃ t : State, core.run n s = .next t ∧ t = { s with events := s.events.drop n, draws := t.draws }

/-- R130: `timer_tick` decrements both timers by 1, floored at 0, in `RUNNING` and `KEY_WAIT`, and nothing else; in
`HALTED` and `FAULTED` it does nothing (decision D20). -/
def Obligations.TimerTickCountsDown : Prop :=
  ∀ (s : State) (rest : List Event), s.events = .timerTick :: rest → ∃ t, step s = .next t ∧
    t = { s with events := rest, dt := t.dt, st := t.st } ∧
    (s.mode.stopped = false → t.dt.toNat = s.dt.toNat - 1 ∧ t.st.toNat = s.st.toNat - 1) ∧
    (s.mode.stopped = true → t.dt = s.dt ∧ t.st = s.st)

/-- R131: a timer loaded with `v` reaches 0 after exactly `v` `timer_tick` events and stays there: after `k` of them it
holds `v - k`, floored at 0. -/
def Obligations.TimersReachZeroAndStay : Prop :=
  ∀ (k : Nat) (s : State) (rest : List Event), s.mode.stopped = false →
    s.events = List.replicate k .timerTick ++ rest → ∃ t : State, core.run k s = .next t ∧
      t = { s with events := rest, dt := t.dt, st := t.st } ∧
      t.dt.toNat = s.dt.toNat - k ∧ t.st.toNat = s.st.toNat - k

/-- R127 (decisions D19, D28): events presented in one clock period are performed one after the other, the `cpu_tick`
before the `timer_tick`, and a `reset` drops the others; they wait behind the events presented before. -/
def Obligations.CoincidentEventsSerialised : Prop :=
  (∀ cpu timer, (Presented.mk cpu timer true).serialise = [.reset]) ∧
  (∀ keys rnd, (Presented.mk (some (keys, rnd)) true false).serialise = [.cpuTick keys rnd, .timerTick]) ∧
  (∀ keys rnd, (Presented.mk (some (keys, rnd)) false false).serialise = [.cpuTick keys rnd]) ∧
  (Presented.mk none true false).serialise = [.timerTick] ∧ (Presented.mk none false false).serialise = [] ∧
  (∀ (s : State) (p : Presented), s.offer p = { s with events := s.events ++ p.serialise })

/-- R67, R116: while no key is pressed an `Fx0A` waits for as long as `cpu_tick`s come: `PC` stays at the `Fx0A`, no
register but the timers changes, and the timers go on counting down. -/
def Obligations.KeyWaitLastsWhileNoKey : Prop :=
  ∀ (s : State) (x : Reg) (es rest : List Event), s.mode.stopped = false → s.pc.toNat + 1 ≤ 0xFFF →
    decodeWord (s.mem.wordAt s.pc.toNat) = .ldVxK x → s.events = es ++ rest →
    (∀ e ∈ es, e = .timerTick ∨ ∃ rnd, e = .cpuTick 0 rnd) →
    ∃ t : State, core.run es.length s = .next t ∧
      t = { s with events := rest, dt := t.dt, st := t.st, mode := t.mode, keys := t.keys, rnd := t.rnd } ∧
      ((∃ rnd, Event.cpuTick 0 rnd ∈ es) → t.mode = .keyWait) ∧
      ((∀ rnd, Event.cpuTick 0 rnd ∉ es) → t.mode = s.mode) ∧
      t.dt.toNat = s.dt.toNat - es.count .timerTick ∧ t.st.toNat = s.st.toNat - es.count .timerTick

/-- R41, R31: a store is seen by the very next fetch, with the register stored at the lower address as the high byte:
after an `Fx55` (`x >= 1`) at the address of the next instruction, the next fetch reads `V0` and `V1`. -/
def Obligations.StoreIsSeenByNextFetch : Prop :=
  ∀ (s : State) (x : Reg), s.mem.wf → 1 ≤ x.val → s.i = s.pc → s.i.toNat + x.val ≤ 0xFFF →
    ∃ t u, exec (.ldMemVx x) s = .next t ∧ fetch t = .ok (wordOfBytes (s.readV 0) (s.readV 1), u)

/-! ## Control flow -/

/-- R71: `1nnn` sets `PC` to `nnn`; it changes nothing else and never halts the machine (the mode is R65's). -/
def Obligations.JumpSetsPc : Prop :=
  ∀ (s : State) (nnn : Addr12), decodeWord (formatNNN 0x1#4 nnn) = .jp nnn ∧
    ∃ t, exec (.jp nnn) s = .next t ∧ t.pc.toNat = nnn.toNat ∧ t.mode = .running ∧ Frame { pc := true } s t

/-- R72: `2nnn` pushes the `PC` after the `CALL`, all 16 bits of it, and jumps; with ten addresses stacked it raises
`StackOverflow` with `info = PC`, and `SP`, the slots and `PC` keep their values (the fault's form is decision D6, the
stack's D24). -/
def Obligations.CallPushesReturnAddress : Prop :=
  ∀ (s : State) (nnn : Addr12), decodeWord (formatNNN 0x2#4 nnn) = .call nnn ∧
    (∀ h : s.sp.val < 10, ∃ t, exec (.call nnn) s = .next t ∧ t.sp.val = s.sp.val + 1 ∧
      t.stack[s.sp.val]'h = s.pc ∧ t.pc.toNat = nnn.toNat ∧ t.mode = .running ∧
      Frame { pc := true, sp := true, slot := fun k => k == s.sp.val } s t) ∧
    (s.sp.val = 10 → s.push s.pc = .error ⟨.stackOverflow, s.pc.toNat⟩ ∧
      exec (.call nnn) s = .next (faultedWith .stackOverflow s))

/-- R73: `00EE` pops the most recently pushed address into `PC`; the slot keeps its value; on an empty stack it raises
`StackUnderflow` with `info = PC`, and nothing but `MODE` and `FAULT_CAUSE` changes (the fault's form is decision D6,
the stack's D24; the mode clause is R65's, boundary decision D5). -/
def Obligations.ReturnPopsAddress : Prop :=
  decodeWord 0x00EE#16 = .ret ∧ ∀ s : State,
    (∀ h : 0 < s.sp.val, ∃ t, exec .ret s = .next t ∧ t.sp.val = s.sp.val - 1 ∧
      t.pc = s.stack[s.sp.val - 1]'(by omega) ∧ ModeFromPc t ∧ Frame { pc := true, sp := true } s t) ∧
    (s.sp.val = 0 → s.pop = .error ⟨.stackUnderflow, s.pc.toNat⟩ ∧
      exec .ret s = .next (faultedWith .stackUnderflow s))

/-- The call and return round trip (95_test_vectors.md S6, from R72 and R73): whatever a subroutine does that leaves the
call stack as it found it, its `RET` goes back to the instruction after the `CALL`, with the depth as before. -/
def Obligations.ReturnGoesBackToCaller : Prop :=
  ∀ (s u : State) (nnn : Addr12), s.sp.val < 10 → ∃ t, exec (.call nnn) s = .next t ∧
    (u.stack = t.stack → u.sp = t.sp → ∃ u', exec .ret u = .next u' ∧ u'.pc = s.pc ∧ u'.sp = s.sp)

/-- R74: `Bnnn` sets `PC` to `nnn + V0`, not reduced modulo 4096; a sum of 0x1000 or more halts (the mode clause is
R65's, boundary decision D5). -/
def Obligations.JumpAddsV0 : Prop :=
  ∀ (s : State) (nnn : Addr12), decodeWord (formatNNN 0xB#4 nnn) = .jpV0 nnn ∧
    ∃ t, exec (.jpV0 nnn) s = .next t ∧ t.pc.toNat = nnn.toNat + (s.readV 0).toNat ∧ ModeFromPc t ∧
      Frame { pc := true } s t

/-- R75 to R78: the four skips add 2 to `PC` exactly when their condition holds, and change nothing else (the mode
clause is R65's, boundary decision D5; that `5xyn` and `9xyn` need `n = 0` is decision D14). -/
def Obligations.SkipsAddTwoWhenConditionHolds : Prop :=
  ∀ (s : State) (x y : Reg) (nn : Byte),
    (∃ t, exec (.seImm x nn) s = .next t ∧ t.pc = (if s.readV x = nn then s.pc + 2 else s.pc) ∧ ModeFromPc t ∧
      Frame { pc := true } s t) ∧
    (∃ t, exec (.sneImm x nn) s = .next t ∧ t.pc = (if s.readV x ≠ nn then s.pc + 2 else s.pc) ∧ ModeFromPc t ∧
      Frame { pc := true } s t) ∧
    (∃ t, exec (.seReg x y) s = .next t ∧ t.pc = (if s.readV x = s.readV y then s.pc + 2 else s.pc) ∧ ModeFromPc t ∧
      Frame { pc := true } s t) ∧
    (∃ t, exec (.sneReg x y) s = .next t ∧ t.pc = (if s.readV x ≠ s.readV y then s.pc + 2 else s.pc) ∧ ModeFromPc t ∧
      Frame { pc := true } s t)

/-- R64: the words that match no row of the 34 decode to the no-operation, which changes no register, no memory byte,
no pixel and neither timer; `PC` stays as the fetch left it (the mode clause is R65's, boundary decision D5). -/
def Obligations.NoOperationChangesNothing : Prop :=
  ∀ (s : State) (w : Word), (matchesNoRow w = true → decodeWord w = .dw w) ∧
    ∃ t, exec (.dw w) s = .next t ∧ ModeFromPc t ∧ Frame {} s t

/-! ## Arithmetic and logic -/

/-- R81, R82, R83: `6xnn` loads `nn`, `7xnn` adds `nn` modulo 256, `8xy0` copies `V[y]`; `VF` is not written unless it is
`V[x]`, and nothing else changes. -/
def Obligations.LoadsAndAddImmediate : Prop :=
  ∀ (s : State) (x y : Reg) (nn : Byte),
    decodeWord (formatXNN 0x6#4 x nn) = .ldImm x nn ∧ decodeWord (formatXNN 0x7#4 x nn) = .addImm x nn ∧
    decodeWord (formatXYN 0x8#4 x y 0x0#4) = .ldReg x y ∧
    (∃ t, exec (.ldImm x nn) s = .next t ∧ t.readV x = nn ∧ t.mode ≠ .faulted ∧
      Frame { v := fun r => r == x } s t) ∧
    (∃ t, exec (.addImm x nn) s = .next t ∧ (t.readV x).toNat = ((s.readV x).toNat + nn.toNat) % 256 ∧
      t.mode ≠ .faulted ∧ Frame { v := fun r => r == x } s t) ∧
    (∃ t, exec (.ldReg x y) s = .next t ∧ t.readV x = s.readV y ∧ t.mode ≠ .faulted ∧
      Frame { v := fun r => r == x } s t)

/-- R84, R85, R86: `V[x]` becomes the bitwise OR, AND, XOR of the operands; `VF` is left unchanged unless `x = F`
(decision D13), and nothing else changes. -/
def Obligations.LogicOperations : Prop :=
  ∀ (s : State) (x y : Reg),
    (∃ t, exec (.or x y) s = .next t ∧
      (∀ k, (t.readV x).getLsbD k = ((s.readV x).getLsbD k || (s.readV y).getLsbD k)) ∧
      ModeFromPc t ∧ Frame { v := fun r => r == x } s t) ∧
    (∃ t, exec (.and x y) s = .next t ∧
      (∀ k, (t.readV x).getLsbD k = ((s.readV x).getLsbD k && (s.readV y).getLsbD k)) ∧
      ModeFromPc t ∧ Frame { v := fun r => r == x } s t) ∧
    (∃ t, exec (.xor x y) s = .next t ∧
      (∀ k, (t.readV x).getLsbD k = ((s.readV x).getLsbD k != (s.readV y).getLsbD k)) ∧
      ModeFromPc t ∧ Frame { v := fun r => r == x } s t)

/-- R87, R88, R90, R94: sum and differences wrap modulo 256; `VF` becomes carry or not-borrow unless `x = F`, when the
result overwrites it; both operands are read before the flag is written (decision D12), so `y = F` uses the old
`VF`. -/
def Obligations.AddAndSubtractRegisters : Prop :=
  ∀ (s : State) (x y : Reg),
    (∃ t, exec (.addReg x y) s = .next t ∧ (t.readV x).toNat = ((s.readV x).toNat + (s.readV y).toNat) % 256 ∧
      (x ≠ Reg.vf → t.readV Reg.vf = if 255 < (s.readV x).toNat + (s.readV y).toNat then 1 else 0) ∧
      ModeFromPc t ∧ Frame { v := fun r => r == x || r == Reg.vf } s t) ∧
    (∃ t, exec (.sub x y) s = .next t ∧
      (t.readV x).toNat = ((s.readV x).toNat + 256 - (s.readV y).toNat) % 256 ∧
      (x ≠ Reg.vf → t.readV Reg.vf = if (s.readV y).toNat ≤ (s.readV x).toNat then 1 else 0) ∧
      ModeFromPc t ∧ Frame { v := fun r => r == x || r == Reg.vf } s t) ∧
    (∃ t, exec (.subn x y) s = .next t ∧
      (t.readV x).toNat = ((s.readV y).toNat + 256 - (s.readV x).toNat) % 256 ∧
      (x ≠ Reg.vf → t.readV Reg.vf = if (s.readV x).toNat ≤ (s.readV y).toNat then 1 else 0) ∧
      ModeFromPc t ∧ Frame { v := fun r => r == x || r == Reg.vf } s t)

/-- R89, R91: `8xy6` and `8xyE` shift `V[x]` by one bit in place, whatever `y` is (decision D11); `VF` becomes the bit
shifted out of the value before the shift, unless `x = F`, when the result overwrites it (decision D12). -/
def Obligations.ShiftsInPlace : Prop :=
  ∀ (s : State) (x y : Reg),
    decodeWord (formatXYN 0x8#4 x y 0x6#4) = .shr x ∧
    decodeWord (formatXYN 0x8#4 x y 0xE#4) = .shl x ∧
    (∃ t, exec (.shr x) s = .next t ∧ (t.readV x).toNat = (s.readV x).toNat / 2 ∧
      (x ≠ Reg.vf → (t.readV Reg.vf).toNat = (s.readV x).toNat % 2) ∧
      ModeFromPc t ∧ Frame { v := fun r => r == x || r == Reg.vf } s t) ∧
    (∃ t, exec (.shl x) s = .next t ∧ (t.readV x).toNat = (s.readV x).toNat * 2 % 256 ∧
      (x ≠ Reg.vf → (t.readV Reg.vf).toNat = (s.readV x).toNat / 128) ∧
      ModeFromPc t ∧ Frame { v := fun r => r == x || r == Reg.vf } s t)

/-- R92: `Cxnn` writes `rnd & nn`, for every byte `rnd` the environment gives; where it gives none, the byte is the free
value (decision D18, log entry 4) and every bit that is 0 in `nn` is 0 in `V[x]` whatever it is. -/
def Obligations.RandomByteIsMasked : Prop :=
  ∀ (s : State) (x : Reg) (nn : Byte), ∃ t, exec (.rnd x nn) s = .next t ∧
    (∀ b, s.rnd = some b → t.readV x = b &&& nn) ∧
    (∀ k, nn.getLsbD k = false → (t.readV x).getLsbD k = false) ∧
    ModeFromPc t ∧ Frame { v := fun r => r == x } s t

/-! ## Index register and memory -/

/-- R96, R98: `Annn` loads `nnn` zero-extended; `Fx29` loads the address of the glyph of the low four bits of `V[x]`;
nothing else changes. -/
def Obligations.IndexLoads : Prop :=
  ∀ (s : State) (nnn : Addr12) (x : Reg),
    decodeWord (formatNNN 0xA#4 nnn) = .ldI nnn ∧ decodeWord (formatXNN 0xF#4 x 0x29#8) = .ldF x ∧
    (∃ t, exec (.ldI nnn) s = .next t ∧ t.i.toNat = nnn.toNat ∧ t.mode ≠ .faulted ∧ Frame { i := true } s t) ∧
    (∃ t, exec (.ldF x) s = .next t ∧ t.i.toNat = 0x050 + (s.readV x).toNat % 16 * 5 ∧ t.mode ≠ .faulted ∧
      Frame { i := true } s t)

/-- R97: `Fx1E` adds `V[x]` (read before `VF` is written) to `I` modulo 65536 and sets `VF` to 1 exactly when the new `I`
is above 0xFFF (decision D15); `I` is not masked to 12 bits. -/
def Obligations.AddToIndexSetsFlag : Prop :=
  ∀ (s : State) (x : Reg), ∃ t, exec (.addI x) s = .next t ∧
    t.i.toNat = (s.i.toNat + (s.readV x).toNat) % 65536 ∧
    t.readV Reg.vf = (if 0xFFF < t.i.toNat then 1 else 0) ∧
    ModeFromPc t ∧ Frame { i := true, v := fun r => r == Reg.vf } s t

/-- R99: `Fx33` stores the three decimal digits of `V[x]` at `I`, `I + 1`, `I + 2` when all three addresses are in the
memory (decision D7), and leaves everything else, `I` included (decision D17). -/
def Obligations.DecimalDigitsStored : Prop :=
  ∀ (s : State) (x : Reg), s.mem.wf → s.i.toNat + 2 ≤ 0xFFF → ∃ t, exec (.ldB x) s = .next t ∧
    (t.mem.read s.i.toNat).toNat = (s.readV x).toNat / 100 ∧
    (t.mem.read (s.i.toNat + 1)).toNat = (s.readV x).toNat / 10 % 10 ∧
    (t.mem.read (s.i.toNat + 2)).toNat = (s.readV x).toNat % 10 ∧
    ModeFromPc t ∧ Frame { mem := fun a => decide (s.i.toNat ≤ a ∧ a ≤ s.i.toNat + 2) } s t

/-- R100: `Fx55` stores `V0` to `V[x]` at `I` to `I + x` when the last address is in the memory (decision D7), and leaves
everything else, `I` included (decision D17). -/
def Obligations.RegistersStored : Prop :=
  ∀ (s : State) (x : Reg), s.mem.wf → s.i.toNat + x.val ≤ 0xFFF → ∃ t, exec (.ldMemVx x) s = .next t ∧
    (∀ r : Reg, r ≤ x → t.mem.read (s.i.toNat + r.val) = s.readV r) ∧
    ModeFromPc t ∧ Frame { mem := fun a => decide (s.i.toNat ≤ a ∧ a ≤ s.i.toNat + x.val) } s t

/-- R101: `Fx65` loads `V0` to `V[x]` from `I` to `I + x` when the last address is in the memory (decision D7); the
registers above `x`, `I` (decision D17) and everything else stay. -/
def Obligations.RegistersLoaded : Prop :=
  ∀ (s : State) (x : Reg), s.i.toNat + x.val ≤ 0xFFF → ∃ t, exec (.ldVxMem x) s = .next t ∧
    (∀ r : Reg, r ≤ x → t.readV r = s.mem.read (s.i.toNat + r.val)) ∧
    ModeFromPc t ∧ Frame { v := fun r => decide (r ≤ x) } s t

/-- R102: `Fx55` followed by `Fx65` with the same `x` and `I` restores the registers it saved, whatever happened to the
registers in between. -/
def Obligations.StoreThenLoadRestores : Prop :=
  ∀ (s u : State) (x : Reg), s.mem.wf → s.i.toNat + x.val ≤ 0xFFF → ∃ t, exec (.ldMemVx x) s = .next t ∧
    (u.mem = t.mem → u.i = s.i → ∃ u', exec (.ldVxMem x) u = .next u' ∧ ∀ r : Reg, r ≤ x → u'.readV r = s.readV r)

/-- R35, R121 (decision D7): when some byte a `Dxyn`, `Fx33`, `Fx55` or `Fx65` would touch lies above 0xFFF it raises
`MemRange` and changes nothing but `MODE` and `FAULT_CAUSE`; `info` is the lowest such address, `max(I, 0x1000)`. -/
def Obligations.OutOfRangeAccessFaults : Prop :=
  ∀ (i : Instr) (s : State), touchesBeyondMemory i s →
    exec i s = .next (faultedWith .memRange s) ∧
    s.checkRange (bytesTouched i s) = some ⟨.memRange, max s.i.toNat 0x1000⟩ ∧
    (∃ k, k < bytesTouched i s ∧ s.i.toNat + k = max s.i.toNat 0x1000) ∧
    (∀ k, 0xFFF < s.i.toNat + k → max s.i.toNat 0x1000 ≤ s.i.toNat + k)

/-! ## Framebuffer -/

/-- R106: `00E0` turns every pixel off, whatever the framebuffer held; no flag, no `present` (decision D21), nothing
else. -/
def Obligations.ClearTurnsEveryPixelOff : Prop :=
  ∀ s : State, ∃ t, exec .cls s = .next t ∧ (∀ r c, t.fb.pixel r c = false) ∧ t.fb = State.reset.fb ∧
    ModeFromPc t ∧ Frame { fb := true } s t

/-- R107, R108: `Dxyn` toggles exactly the pixels of the grid under the sprite's set bits (the start wraps, the pixels
clip: decision D22), sets `VF` to 1 exactly when such a pixel was on, counts one `present`, and leaves everything else;
no row it draws lies above 0xFFF (else it faults, decision D7). -/
def Obligations.DrawTogglesSpritePixels : Prop :=
  ∀ (s : State) (x y : Reg) (n : BitVec 4), ¬ touchesBeyondMemory (.drw x y n) s →
    ∃ t, exec (.drw x y n) s = .next t ∧
      (∀ r c, r < 32 → c < 64 → t.fb.pixel r c = (s.fb.pixel r c != drwBit s x y n r c)) ∧
      (t.readV Reg.vf = 1 ↔ ∃ r c, r < 32 ∧ c < 64 ∧ s.fb.pixel r c = true ∧ drwBit s x y n r c = true) ∧
      (t.readV Reg.vf = 0 ∨ t.readV Reg.vf = 1) ∧ t.presents = s.presents + 1 ∧
      ModeFromPc t ∧ Frame { v := fun r => r == Reg.vf, fb := true, presents := true } s t

/-- R109 (a): drawing the same sprite twice at the same coordinates restores the framebuffer, and the second draw sets
`VF` to 1 exactly when the sprite has a set bit inside the grid that the first draw turned on. The coordinate
registers are not `VF`, which the first draw overwrites. -/
def Obligations.DrawTwiceRestoresFramebuffer : Prop :=
  ∀ (s : State) (x y : Reg) (n : BitVec 4), x ≠ Reg.vf → y ≠ Reg.vf → ¬ touchesBeyondMemory (.drw x y n) s →
    ∃ t u, exec (.drw x y n) s = .next t ∧ exec (.drw x y n) t = .next u ∧ u.fb = s.fb ∧
      (u.readV Reg.vf = 1 ↔ ∃ r c, r < 32 ∧ c < 64 ∧ s.fb.pixel r c = false ∧ drwBit s x y n r c = true)

/-- R108: an instruction counts a `present` exactly when it is a `Dxyn` that raises no fault, and then one. -/
def Obligations.PresentCountsCompletedDraws : Prop :=
  ∀ (i : Instr) (s t : State), exec i s = .next t →
    (((∃ x y n, i = .drw x y n) ∧ ¬ touchesBeyondMemory i s) → t.presents = s.presents + 1) ∧
    (¬ ((∃ x y n, i = .drw x y n) ∧ ¬ touchesBeyondMemory i s) → t.presents = s.presents)

/-! ## Timers and keypad -/

/-- R111, R112, R113: `Fx07` copies `DT` to `V[x]`, `Fx15` and `Fx18` copy `V[x]` to `DT` and `ST`; nothing else
changes (the mode clause is R65's, boundary decision D5). -/
def Obligations.TimerMoves : Prop :=
  ∀ (s : State) (x : Reg),
    decodeWord (formatXNN 0xF#4 x 0x07#8) = .ldVxDT x ∧ decodeWord (formatXNN 0xF#4 x 0x15#8) = .ldDTVx x ∧
    decodeWord (formatXNN 0xF#4 x 0x18#8) = .ldSTVx x ∧
    (∃ t, exec (.ldVxDT x) s = .next t ∧ t.readV x = s.dt ∧ ModeFromPc t ∧ Frame { v := fun r => r == x } s t) ∧
    (∃ t, exec (.ldDTVx x) s = .next t ∧ t.dt = s.readV x ∧ ModeFromPc t ∧ Frame { dt := true } s t) ∧
    (∃ t, exec (.ldSTVx x) s = .next t ∧ t.st = s.readV x ∧ ModeFromPc t ∧ Frame { st := true } s t)

/-- R114, R115: `Ex9E` skips when key `V[x]` is down in this tick's levels, `ExA1` when it is up; nothing else changes.
A key number above 15 raises `KeyRange` with `info = V[x]` and changes nothing but `MODE` and `FAULT_CAUSE` (decision D9;
the mode clause of the skips is R65's, boundary decision D5). -/
def Obligations.KeySkips : Prop :=
  ∀ (s : State) (x : Reg),
    ((s.readV x).toNat ≤ 15 →
      (∃ t, exec (.skp x) s = .next t ∧
        t.pc = (if s.keys.getLsbD (s.readV x).toNat = true then s.pc + 2 else s.pc) ∧ ModeFromPc t ∧
        Frame { pc := true } s t) ∧
      (∃ t, exec (.sknp x) s = .next t ∧
        t.pc = (if s.keys.getLsbD (s.readV x).toNat = false then s.pc + 2 else s.pc) ∧ ModeFromPc t ∧
        Frame { pc := true } s t)) ∧
    (15 < (s.readV x).toNat →
      s.keyIndex x = .error ⟨.keyRange, (s.readV x).toNat⟩ ∧
      exec (.skp x) s = .next (faultedWith .keyRange s) ∧ exec (.sknp x) s = .next (faultedWith .keyRange s))

/-- R116: with no key pressed `Fx0A` puts `PC` back by 2 and waits; otherwise it writes the number of the lowest pressed
key to `V[x]` (decision D16). The levels are this tick's; nothing else changes (the mode clauses are R60's). -/
def Obligations.WaitForKey : Prop :=
  ∀ (s : State) (x : Reg),
    (s.keys = 0 → ∃ t, exec (.ldVxK x) s = .next t ∧ t.pc = s.pc - 2 ∧
      (t.pc.toNat < 0x1000 → t.mode = .keyWait) ∧ Frame { pc := true } s t) ∧
    (s.keys ≠ 0 → ∃ (t : State) (k : Nat), exec (.ldVxK x) s = .next t ∧ k < 16 ∧ s.keys.getLsbD k = true ∧
      (∀ j, j < k → s.keys.getLsbD j = false) ∧ (t.readV x).toNat = k ∧ ModeFromPc t ∧
      Frame { v := fun r => r == x } s t)

/-! ## The whole instruction set -/

/-- R12: `VF` is written only by the seven instructions of R12's table and by those that name it as their destination
(decision D13 for the logic operations); every other register is written only where an instruction names it. -/
def Obligations.RegistersWrittenOnlyByTheirWriters : Prop :=
  ∀ (i : Instr) (s t : State) (r : Reg), exec i s = .next t → namesDestination i r = false →
    ¬ (r = Reg.vf ∧ writesFlag i = true) → t.readV r = s.readV r

/-- 10_state.md, column 'written by': each piece of state is changed only by the instructions the summary lists for it,
and no instruction changes an input (R117). -/
def Obligations.StateWrittenOnlyByItsWriters : Prop :=
  ∀ (i : Instr) (s t : State), exec i s = .next t →
    (t.i ≠ s.i → (∃ nnn, i = .ldI nnn) ∨ (∃ x, i = .addI x) ∨ ∃ x, i = .ldF x) ∧
    (t.stack ≠ s.stack → ∃ nnn, i = .call nnn) ∧
    (t.sp ≠ s.sp → (∃ nnn, i = .call nnn) ∨ i = .ret) ∧
    (t.dt ≠ s.dt → ∃ x, i = .ldDTVx x) ∧ (t.st ≠ s.st → ∃ x, i = .ldSTVx x) ∧
    (t.fb ≠ s.fb → i = .cls ∨ ∃ x y n, i = .drw x y n) ∧
    (t.mem ≠ s.mem → (∃ x, i = .ldB x) ∨ ∃ x, i = .ldMemVx x) ∧
    t.keys = s.keys ∧ t.rnd = s.rnd ∧ t.events = s.events ∧ t.draws = s.draws

/-- R60, R65 (decision D5): an instruction that raises nothing leaves `HALTED` exactly when its new `PC` is 0x1000 or
more; otherwise `KEY_WAIT` exactly when it is an `Fx0A` that found no key, and `RUNNING` in every other case;
`FAULT_CAUSE` is untouched. -/
def Obligations.ModeAfterEveryInstruction : Prop :=
  ∀ (i : Instr) (s : State), (∀ c, ¬ RaisesFault i s c) → ∃ t, exec i s = .next t ∧ t.faultCause = s.faultCause ∧
    (t.mode = .halted ↔ 0x1000 ≤ t.pc.toNat) ∧
    (t.mode = .keyWait ↔ t.pc.toNat < 0x1000 ∧ (∃ x, i = .ldVxK x) ∧ s.keys = 0) ∧ t.mode ≠ .faulted

/-- R121, R122, R124 (decision D6): each instruction raises exactly the fault of R121's table under exactly its condition,
at most one, and faults are precise: `MODE` and `FAULT_CAUSE` change and nothing else. -/
def Obligations.FaultsArePrecise : Prop :=
  (∀ (i : Instr) (s : State) (c : FaultCause), RaisesFault i s c → exec i s = .next (faultedWith c s)) ∧
  (∀ (i : Instr) (s : State) (c c' : FaultCause), RaisesFault i s c → RaisesFault i s c' → c = c') ∧
  (∀ (i : Instr) (s t : State), exec i s = .next t → t.mode = .faulted → ∃ c, RaisesFault i s c ∧ t.faultCause = c)

/-- R19, R134: the sound timer drives nothing: two machines that differ only in `ST` run alike and differ only in `ST`
after any number of events. -/
def Obligations.SoundTimerDrivesNothing : Prop :=
  ∀ (n : Nat) (s t : State) (b : Byte), core.run n s = .next t →
    ∃ b', core.run n { s with st := b } = .next { t with st := b' }

/-- R17: a slot above the depth cannot be observed: two machines that differ only in such slots run alike, with the same
outputs, for any number of events. -/
def Obligations.DeadStackSlotsUnobservable : Prop :=
  ∀ (n : Nat) (s s' t : State), SameLiveStack s s' → core.run n s = .next t →
    ∃ t' : State, core.run n s' = .next t' ∧ SameLiveStack t t' ∧ t'.outputs = t.outputs

/-- R24, R25: only `Ex9E`, `ExA1` and `Fx0A` look at the keys, and only `Cxnn` looks at the random byte. -/
def Obligations.InputsReadOnlyByTheirInstructions : Prop :=
  ∀ (i : Instr) (s t : State), exec i s = .next t →
    (∀ keys, (∀ x, i ≠ .skp x ∧ i ≠ .sknp x ∧ i ≠ .ldVxK x) →
      exec i { s with keys := keys } = .next { t with keys := keys }) ∧
    (∀ rnd draws, (∀ x nn, i ≠ .rnd x nn) →
      exec i { s with rnd := rnd, draws := draws } = .next { t with rnd := rnd, draws := draws })

/-! ## Memory and launch -/

/-- R34: a read returns the last byte written to that address, a write changes no other byte, and the memory list keeps
its canonical form (the form is this model's, log entry 5). -/
def Obligations.MemoryReadsLastWrite : Prop :=
  ∀ (m : Memory) (a : Nat) (v : Byte), m.wf →
    ((m.write a v).read a = v) ∧ (∀ b, b ≠ a → (m.write a v).read b = m.read b) ∧
    (a < 0x1000 → (m.write a v).wf)

/-- Two memories in canonical form that read alike are the same list: a memory is what its reads say (the form is this
model's, log entry 5). -/
def Obligations.CanonicalMemoriesWithEqualReadsAreEqual : Prop :=
  ∀ m m' : Memory, m.wf → m'.wf → (∀ a, a < 0x1000 → m.read a = m'.read a) → m = m'

/-- R143 (a), (b): after the launch byte `j` of the program is at 0x200 + `j`, the 80 font bytes are at 0x050 to 0x09F,
every other byte and all block state is as before, and the memory is canonical. -/
def Obligations.LaunchPlacesFontAndProgram : Prop :=
  ∀ (s : State) (font program : List Byte), s.mem.wf → font.length = 80 → program.length ≤ 3584 →
    (∀ (j : Nat) (h : j < program.length), (s.launch font program).mem.read (0x200 + j) = program[j]'h) ∧
    (∀ (j : Nat) (h : j < font.length), (s.launch font program).mem.read (0x050 + j) = font[j]'h) ∧
    (∀ a, ¬ (0x050 ≤ a ∧ a < 0x0A0) → ¬ (0x200 ≤ a ∧ a < 0x200 + program.length) →
      (s.launch font program).mem.read a = s.mem.read a) ∧
    (s.launch font program).mem.wf ∧ s.launch font program = { s with mem := (s.launch font program).mem }

/-- The interface `withFetchWord` (log entry 6): the very next step fetches exactly the placed word and executes it. -/
def Obligations.PlacedWordIsExecutedNext : Prop :=
  ∀ (s : State) (w : Nat), s.mem.wf → w < 0x10000 →
    (s.withFetchWord 16 w).mode.stopped = false ∧ (s.withFetchWord 16 w).mem.wf ∧
    ∃ u : State, step (s.withFetchWord 16 w) = exec (decodeWord (BitVec.ofNat 16 w)) u ∧
      u = { s.withFetchWord 16 w with
        pc := (s.withFetchWord 16 w).pc + 2, events := u.events, keys := u.keys, rnd := u.rnd, draws := u.draws }
end

