-- ==== Sys2Proof/Laws/State.lean ====
section
/-! SUPPORT. One lemma per field per state update, so that no proof unfolds a record update; and the laws of reading
and writing the general registers (R10). -/

namespace Sys2Proof.Machine

@[simp] theorem State.writeV_v (s : State) (x : Reg) (b : Byte) : (s.writeV x b).v = s.v.set x b := rfl
@[simp] theorem State.writeV_pc (s : State) (x : Reg) (b : Byte) : (s.writeV x b).pc = s.pc := rfl
@[simp] theorem State.writeV_i (s : State) (x : Reg) (b : Byte) : (s.writeV x b).i = s.i := rfl
@[simp] theorem State.writeV_stack (s : State) (x : Reg) (b : Byte) : (s.writeV x b).stack = s.stack := rfl
@[simp] theorem State.writeV_sp (s : State) (x : Reg) (b : Byte) : (s.writeV x b).sp = s.sp := rfl
@[simp] theorem State.writeV_dt (s : State) (x : Reg) (b : Byte) : (s.writeV x b).dt = s.dt := rfl
@[simp] theorem State.writeV_st (s : State) (x : Reg) (b : Byte) : (s.writeV x b).st = s.st := rfl
@[simp] theorem State.writeV_mode (s : State) (x : Reg) (b : Byte) : (s.writeV x b).mode = s.mode := rfl
@[simp] theorem State.writeV_faultCause (s : State) (x : Reg) (b : Byte) : (s.writeV x b).faultCause = s.faultCause := rfl
@[simp] theorem State.writeV_fb (s : State) (x : Reg) (b : Byte) : (s.writeV x b).fb = s.fb := rfl
@[simp] theorem State.writeV_presents (s : State) (x : Reg) (b : Byte) : (s.writeV x b).presents = s.presents := rfl
@[simp] theorem State.writeV_mem (s : State) (x : Reg) (b : Byte) : (s.writeV x b).mem = s.mem := rfl
@[simp] theorem State.writeV_keys (s : State) (x : Reg) (b : Byte) : (s.writeV x b).keys = s.keys := rfl
@[simp] theorem State.writeV_rnd (s : State) (x : Reg) (b : Byte) : (s.writeV x b).rnd = s.rnd := rfl
@[simp] theorem State.writeV_events (s : State) (x : Reg) (b : Byte) : (s.writeV x b).events = s.events := rfl
@[simp] theorem State.writeV_draws (s : State) (x : Reg) (b : Byte) : (s.writeV x b).draws = s.draws := rfl

@[simp] theorem State.writePc_v (s : State) (a : Word) : (s.writePc a).v = s.v := rfl
@[simp] theorem State.writePc_pc (s : State) (a : Word) : (s.writePc a).pc = a := rfl
@[simp] theorem State.writePc_i (s : State) (a : Word) : (s.writePc a).i = s.i := rfl
@[simp] theorem State.writePc_stack (s : State) (a : Word) : (s.writePc a).stack = s.stack := rfl
@[simp] theorem State.writePc_sp (s : State) (a : Word) : (s.writePc a).sp = s.sp := rfl
@[simp] theorem State.writePc_dt (s : State) (a : Word) : (s.writePc a).dt = s.dt := rfl
@[simp] theorem State.writePc_st (s : State) (a : Word) : (s.writePc a).st = s.st := rfl
@[simp] theorem State.writePc_mode (s : State) (a : Word) : (s.writePc a).mode = s.mode := rfl
@[simp] theorem State.writePc_faultCause (s : State) (a : Word) : (s.writePc a).faultCause = s.faultCause := rfl
@[simp] theorem State.writePc_fb (s : State) (a : Word) : (s.writePc a).fb = s.fb := rfl
@[simp] theorem State.writePc_presents (s : State) (a : Word) : (s.writePc a).presents = s.presents := rfl
@[simp] theorem State.writePc_mem (s : State) (a : Word) : (s.writePc a).mem = s.mem := rfl
@[simp] theorem State.writePc_keys (s : State) (a : Word) : (s.writePc a).keys = s.keys := rfl
@[simp] theorem State.writePc_rnd (s : State) (a : Word) : (s.writePc a).rnd = s.rnd := rfl
@[simp] theorem State.writePc_events (s : State) (a : Word) : (s.writePc a).events = s.events := rfl
@[simp] theorem State.writePc_draws (s : State) (a : Word) : (s.writePc a).draws = s.draws := rfl

@[simp] theorem State.writeI_v (s : State) (a : Word) : (s.writeI a).v = s.v := rfl
@[simp] theorem State.writeI_pc (s : State) (a : Word) : (s.writeI a).pc = s.pc := rfl
@[simp] theorem State.writeI_i (s : State) (a : Word) : (s.writeI a).i = a := rfl
@[simp] theorem State.writeI_stack (s : State) (a : Word) : (s.writeI a).stack = s.stack := rfl
@[simp] theorem State.writeI_sp (s : State) (a : Word) : (s.writeI a).sp = s.sp := rfl
@[simp] theorem State.writeI_dt (s : State) (a : Word) : (s.writeI a).dt = s.dt := rfl
@[simp] theorem State.writeI_st (s : State) (a : Word) : (s.writeI a).st = s.st := rfl
@[simp] theorem State.writeI_mode (s : State) (a : Word) : (s.writeI a).mode = s.mode := rfl
@[simp] theorem State.writeI_faultCause (s : State) (a : Word) : (s.writeI a).faultCause = s.faultCause := rfl
@[simp] theorem State.writeI_fb (s : State) (a : Word) : (s.writeI a).fb = s.fb := rfl
@[simp] theorem State.writeI_presents (s : State) (a : Word) : (s.writeI a).presents = s.presents := rfl
@[simp] theorem State.writeI_mem (s : State) (a : Word) : (s.writeI a).mem = s.mem := rfl
@[simp] theorem State.writeI_keys (s : State) (a : Word) : (s.writeI a).keys = s.keys := rfl
@[simp] theorem State.writeI_rnd (s : State) (a : Word) : (s.writeI a).rnd = s.rnd := rfl
@[simp] theorem State.writeI_events (s : State) (a : Word) : (s.writeI a).events = s.events := rfl
@[simp] theorem State.writeI_draws (s : State) (a : Word) : (s.writeI a).draws = s.draws := rfl

@[simp] theorem State.writeDT_v (s : State) (b : Byte) : (s.writeDT b).v = s.v := rfl
@[simp] theorem State.writeDT_pc (s : State) (b : Byte) : (s.writeDT b).pc = s.pc := rfl
@[simp] theorem State.writeDT_i (s : State) (b : Byte) : (s.writeDT b).i = s.i := rfl
@[simp] theorem State.writeDT_stack (s : State) (b : Byte) : (s.writeDT b).stack = s.stack := rfl
@[simp] theorem State.writeDT_sp (s : State) (b : Byte) : (s.writeDT b).sp = s.sp := rfl
@[simp] theorem State.writeDT_dt (s : State) (b : Byte) : (s.writeDT b).dt = b := rfl
@[simp] theorem State.writeDT_st (s : State) (b : Byte) : (s.writeDT b).st = s.st := rfl
@[simp] theorem State.writeDT_mode (s : State) (b : Byte) : (s.writeDT b).mode = s.mode := rfl
@[simp] theorem State.writeDT_faultCause (s : State) (b : Byte) : (s.writeDT b).faultCause = s.faultCause := rfl
@[simp] theorem State.writeDT_fb (s : State) (b : Byte) : (s.writeDT b).fb = s.fb := rfl
@[simp] theorem State.writeDT_presents (s : State) (b : Byte) : (s.writeDT b).presents = s.presents := rfl
@[simp] theorem State.writeDT_mem (s : State) (b : Byte) : (s.writeDT b).mem = s.mem := rfl
@[simp] theorem State.writeDT_keys (s : State) (b : Byte) : (s.writeDT b).keys = s.keys := rfl
@[simp] theorem State.writeDT_rnd (s : State) (b : Byte) : (s.writeDT b).rnd = s.rnd := rfl
@[simp] theorem State.writeDT_events (s : State) (b : Byte) : (s.writeDT b).events = s.events := rfl
@[simp] theorem State.writeDT_draws (s : State) (b : Byte) : (s.writeDT b).draws = s.draws := rfl

@[simp] theorem State.writeST_v (s : State) (b : Byte) : (s.writeST b).v = s.v := rfl
@[simp] theorem State.writeST_pc (s : State) (b : Byte) : (s.writeST b).pc = s.pc := rfl
@[simp] theorem State.writeST_i (s : State) (b : Byte) : (s.writeST b).i = s.i := rfl
@[simp] theorem State.writeST_stack (s : State) (b : Byte) : (s.writeST b).stack = s.stack := rfl
@[simp] theorem State.writeST_sp (s : State) (b : Byte) : (s.writeST b).sp = s.sp := rfl
@[simp] theorem State.writeST_dt (s : State) (b : Byte) : (s.writeST b).dt = s.dt := rfl
@[simp] theorem State.writeST_st (s : State) (b : Byte) : (s.writeST b).st = b := rfl
@[simp] theorem State.writeST_mode (s : State) (b : Byte) : (s.writeST b).mode = s.mode := rfl
@[simp] theorem State.writeST_faultCause (s : State) (b : Byte) : (s.writeST b).faultCause = s.faultCause := rfl
@[simp] theorem State.writeST_fb (s : State) (b : Byte) : (s.writeST b).fb = s.fb := rfl
@[simp] theorem State.writeST_presents (s : State) (b : Byte) : (s.writeST b).presents = s.presents := rfl
@[simp] theorem State.writeST_mem (s : State) (b : Byte) : (s.writeST b).mem = s.mem := rfl
@[simp] theorem State.writeST_keys (s : State) (b : Byte) : (s.writeST b).keys = s.keys := rfl
@[simp] theorem State.writeST_rnd (s : State) (b : Byte) : (s.writeST b).rnd = s.rnd := rfl
@[simp] theorem State.writeST_events (s : State) (b : Byte) : (s.writeST b).events = s.events := rfl
@[simp] theorem State.writeST_draws (s : State) (b : Byte) : (s.writeST b).draws = s.draws := rfl

@[simp] theorem State.writeRegs_v (s : State) (v : Vector Byte 16) : (s.writeRegs v).v = v := rfl
@[simp] theorem State.writeRegs_pc (s : State) (v : Vector Byte 16) : (s.writeRegs v).pc = s.pc := rfl
@[simp] theorem State.writeRegs_i (s : State) (v : Vector Byte 16) : (s.writeRegs v).i = s.i := rfl
@[simp] theorem State.writeRegs_stack (s : State) (v : Vector Byte 16) : (s.writeRegs v).stack = s.stack := rfl
@[simp] theorem State.writeRegs_sp (s : State) (v : Vector Byte 16) : (s.writeRegs v).sp = s.sp := rfl
@[simp] theorem State.writeRegs_dt (s : State) (v : Vector Byte 16) : (s.writeRegs v).dt = s.dt := rfl
@[simp] theorem State.writeRegs_st (s : State) (v : Vector Byte 16) : (s.writeRegs v).st = s.st := rfl
@[simp] theorem State.writeRegs_mode (s : State) (v : Vector Byte 16) : (s.writeRegs v).mode = s.mode := rfl
@[simp] theorem State.writeRegs_faultCause (s : State) (v : Vector Byte 16) : (s.writeRegs v).faultCause = s.faultCause := rfl
@[simp] theorem State.writeRegs_fb (s : State) (v : Vector Byte 16) : (s.writeRegs v).fb = s.fb := rfl
@[simp] theorem State.writeRegs_presents (s : State) (v : Vector Byte 16) : (s.writeRegs v).presents = s.presents := rfl
@[simp] theorem State.writeRegs_mem (s : State) (v : Vector Byte 16) : (s.writeRegs v).mem = s.mem := rfl
@[simp] theorem State.writeRegs_keys (s : State) (v : Vector Byte 16) : (s.writeRegs v).keys = s.keys := rfl
@[simp] theorem State.writeRegs_rnd (s : State) (v : Vector Byte 16) : (s.writeRegs v).rnd = s.rnd := rfl
@[simp] theorem State.writeRegs_events (s : State) (v : Vector Byte 16) : (s.writeRegs v).events = s.events := rfl
@[simp] theorem State.writeRegs_draws (s : State) (v : Vector Byte 16) : (s.writeRegs v).draws = s.draws := rfl

@[simp] theorem State.writeMem_v (s : State) (m : Memory) : (s.writeMem m).v = s.v := rfl
@[simp] theorem State.writeMem_pc (s : State) (m : Memory) : (s.writeMem m).pc = s.pc := rfl
@[simp] theorem State.writeMem_i (s : State) (m : Memory) : (s.writeMem m).i = s.i := rfl
@[simp] theorem State.writeMem_stack (s : State) (m : Memory) : (s.writeMem m).stack = s.stack := rfl
@[simp] theorem State.writeMem_sp (s : State) (m : Memory) : (s.writeMem m).sp = s.sp := rfl
@[simp] theorem State.writeMem_dt (s : State) (m : Memory) : (s.writeMem m).dt = s.dt := rfl
@[simp] theorem State.writeMem_st (s : State) (m : Memory) : (s.writeMem m).st = s.st := rfl
@[simp] theorem State.writeMem_mode (s : State) (m : Memory) : (s.writeMem m).mode = s.mode := rfl
@[simp] theorem State.writeMem_faultCause (s : State) (m : Memory) : (s.writeMem m).faultCause = s.faultCause := rfl
@[simp] theorem State.writeMem_fb (s : State) (m : Memory) : (s.writeMem m).fb = s.fb := rfl
@[simp] theorem State.writeMem_presents (s : State) (m : Memory) : (s.writeMem m).presents = s.presents := rfl
@[simp] theorem State.writeMem_mem (s : State) (m : Memory) : (s.writeMem m).mem = m := rfl
@[simp] theorem State.writeMem_keys (s : State) (m : Memory) : (s.writeMem m).keys = s.keys := rfl
@[simp] theorem State.writeMem_rnd (s : State) (m : Memory) : (s.writeMem m).rnd = s.rnd := rfl
@[simp] theorem State.writeMem_events (s : State) (m : Memory) : (s.writeMem m).events = s.events := rfl
@[simp] theorem State.writeMem_draws (s : State) (m : Memory) : (s.writeMem m).draws = s.draws := rfl

@[simp] theorem State.writeFb_v (s : State) (fb : Framebuffer) : (s.writeFb fb).v = s.v := rfl
@[simp] theorem State.writeFb_pc (s : State) (fb : Framebuffer) : (s.writeFb fb).pc = s.pc := rfl
@[simp] theorem State.writeFb_i (s : State) (fb : Framebuffer) : (s.writeFb fb).i = s.i := rfl
@[simp] theorem State.writeFb_stack (s : State) (fb : Framebuffer) : (s.writeFb fb).stack = s.stack := rfl
@[simp] theorem State.writeFb_sp (s : State) (fb : Framebuffer) : (s.writeFb fb).sp = s.sp := rfl
@[simp] theorem State.writeFb_dt (s : State) (fb : Framebuffer) : (s.writeFb fb).dt = s.dt := rfl
@[simp] theorem State.writeFb_st (s : State) (fb : Framebuffer) : (s.writeFb fb).st = s.st := rfl
@[simp] theorem State.writeFb_mode (s : State) (fb : Framebuffer) : (s.writeFb fb).mode = s.mode := rfl
@[simp] theorem State.writeFb_faultCause (s : State) (fb : Framebuffer) : (s.writeFb fb).faultCause = s.faultCause := rfl
@[simp] theorem State.writeFb_fb (s : State) (fb : Framebuffer) : (s.writeFb fb).fb = fb := rfl
@[simp] theorem State.writeFb_presents (s : State) (fb : Framebuffer) : (s.writeFb fb).presents = s.presents := rfl
@[simp] theorem State.writeFb_mem (s : State) (fb : Framebuffer) : (s.writeFb fb).mem = s.mem := rfl
@[simp] theorem State.writeFb_keys (s : State) (fb : Framebuffer) : (s.writeFb fb).keys = s.keys := rfl
@[simp] theorem State.writeFb_rnd (s : State) (fb : Framebuffer) : (s.writeFb fb).rnd = s.rnd := rfl
@[simp] theorem State.writeFb_events (s : State) (fb : Framebuffer) : (s.writeFb fb).events = s.events := rfl
@[simp] theorem State.writeFb_draws (s : State) (fb : Framebuffer) : (s.writeFb fb).draws = s.draws := rfl

@[simp] theorem State.countPresent_v (s : State) : (s.countPresent).v = s.v := rfl
@[simp] theorem State.countPresent_pc (s : State) : (s.countPresent).pc = s.pc := rfl
@[simp] theorem State.countPresent_i (s : State) : (s.countPresent).i = s.i := rfl
@[simp] theorem State.countPresent_stack (s : State) : (s.countPresent).stack = s.stack := rfl
@[simp] theorem State.countPresent_sp (s : State) : (s.countPresent).sp = s.sp := rfl
@[simp] theorem State.countPresent_dt (s : State) : (s.countPresent).dt = s.dt := rfl
@[simp] theorem State.countPresent_st (s : State) : (s.countPresent).st = s.st := rfl
@[simp] theorem State.countPresent_mode (s : State) : (s.countPresent).mode = s.mode := rfl
@[simp] theorem State.countPresent_faultCause (s : State) : (s.countPresent).faultCause = s.faultCause := rfl
@[simp] theorem State.countPresent_fb (s : State) : (s.countPresent).fb = s.fb := rfl
@[simp] theorem State.countPresent_presents (s : State) : (s.countPresent).presents = s.presents + 1 := rfl
@[simp] theorem State.countPresent_mem (s : State) : (s.countPresent).mem = s.mem := rfl
@[simp] theorem State.countPresent_keys (s : State) : (s.countPresent).keys = s.keys := rfl
@[simp] theorem State.countPresent_rnd (s : State) : (s.countPresent).rnd = s.rnd := rfl
@[simp] theorem State.countPresent_events (s : State) : (s.countPresent).events = s.events := rfl
@[simp] theorem State.countPresent_draws (s : State) : (s.countPresent).draws = s.draws := rfl

@[simp] theorem State.writeMode_v (s : State) (m : Mode) : (s.writeMode m).v = s.v := rfl
@[simp] theorem State.writeMode_pc (s : State) (m : Mode) : (s.writeMode m).pc = s.pc := rfl
@[simp] theorem State.writeMode_i (s : State) (m : Mode) : (s.writeMode m).i = s.i := rfl
@[simp] theorem State.writeMode_stack (s : State) (m : Mode) : (s.writeMode m).stack = s.stack := rfl
@[simp] theorem State.writeMode_sp (s : State) (m : Mode) : (s.writeMode m).sp = s.sp := rfl
@[simp] theorem State.writeMode_dt (s : State) (m : Mode) : (s.writeMode m).dt = s.dt := rfl
@[simp] theorem State.writeMode_st (s : State) (m : Mode) : (s.writeMode m).st = s.st := rfl
@[simp] theorem State.writeMode_mode (s : State) (m : Mode) : (s.writeMode m).mode = m := rfl
@[simp] theorem State.writeMode_faultCause (s : State) (m : Mode) : (s.writeMode m).faultCause = s.faultCause := rfl
@[simp] theorem State.writeMode_fb (s : State) (m : Mode) : (s.writeMode m).fb = s.fb := rfl
@[simp] theorem State.writeMode_presents (s : State) (m : Mode) : (s.writeMode m).presents = s.presents := rfl
@[simp] theorem State.writeMode_mem (s : State) (m : Mode) : (s.writeMode m).mem = s.mem := rfl
@[simp] theorem State.writeMode_keys (s : State) (m : Mode) : (s.writeMode m).keys = s.keys := rfl
@[simp] theorem State.writeMode_rnd (s : State) (m : Mode) : (s.writeMode m).rnd = s.rnd := rfl
@[simp] theorem State.writeMode_events (s : State) (m : Mode) : (s.writeMode m).events = s.events := rfl
@[simp] theorem State.writeMode_draws (s : State) (m : Mode) : (s.writeMode m).draws = s.draws := rfl

@[simp] theorem State.writeCause_v (s : State) (c : FaultCause) : (s.writeCause c).v = s.v := rfl
@[simp] theorem State.writeCause_pc (s : State) (c : FaultCause) : (s.writeCause c).pc = s.pc := rfl
@[simp] theorem State.writeCause_i (s : State) (c : FaultCause) : (s.writeCause c).i = s.i := rfl
@[simp] theorem State.writeCause_stack (s : State) (c : FaultCause) : (s.writeCause c).stack = s.stack := rfl
@[simp] theorem State.writeCause_sp (s : State) (c : FaultCause) : (s.writeCause c).sp = s.sp := rfl
@[simp] theorem State.writeCause_dt (s : State) (c : FaultCause) : (s.writeCause c).dt = s.dt := rfl
@[simp] theorem State.writeCause_st (s : State) (c : FaultCause) : (s.writeCause c).st = s.st := rfl
@[simp] theorem State.writeCause_mode (s : State) (c : FaultCause) : (s.writeCause c).mode = s.mode := rfl
@[simp] theorem State.writeCause_faultCause (s : State) (c : FaultCause) : (s.writeCause c).faultCause = c := rfl
@[simp] theorem State.writeCause_fb (s : State) (c : FaultCause) : (s.writeCause c).fb = s.fb := rfl
@[simp] theorem State.writeCause_presents (s : State) (c : FaultCause) : (s.writeCause c).presents = s.presents := rfl
@[simp] theorem State.writeCause_mem (s : State) (c : FaultCause) : (s.writeCause c).mem = s.mem := rfl
@[simp] theorem State.writeCause_keys (s : State) (c : FaultCause) : (s.writeCause c).keys = s.keys := rfl
@[simp] theorem State.writeCause_rnd (s : State) (c : FaultCause) : (s.writeCause c).rnd = s.rnd := rfl
@[simp] theorem State.writeCause_events (s : State) (c : FaultCause) : (s.writeCause c).events = s.events := rfl
@[simp] theorem State.writeCause_draws (s : State) (c : FaultCause) : (s.writeCause c).draws = s.draws := rfl

@[simp] theorem State.latch_v (s : State) (keys : KeyLevels) (rnd : Option Byte) : (s.latch keys rnd).v = s.v := rfl
@[simp] theorem State.latch_pc (s : State) (keys : KeyLevels) (rnd : Option Byte) : (s.latch keys rnd).pc = s.pc := rfl
@[simp] theorem State.latch_i (s : State) (keys : KeyLevels) (rnd : Option Byte) : (s.latch keys rnd).i = s.i := rfl
@[simp] theorem State.latch_stack (s : State) (keys : KeyLevels) (rnd : Option Byte) : (s.latch keys rnd).stack = s.stack := rfl
@[simp] theorem State.latch_sp (s : State) (keys : KeyLevels) (rnd : Option Byte) : (s.latch keys rnd).sp = s.sp := rfl
@[simp] theorem State.latch_dt (s : State) (keys : KeyLevels) (rnd : Option Byte) : (s.latch keys rnd).dt = s.dt := rfl
@[simp] theorem State.latch_st (s : State) (keys : KeyLevels) (rnd : Option Byte) : (s.latch keys rnd).st = s.st := rfl
@[simp] theorem State.latch_mode (s : State) (keys : KeyLevels) (rnd : Option Byte) : (s.latch keys rnd).mode = s.mode := rfl
@[simp] theorem State.latch_faultCause (s : State) (keys : KeyLevels) (rnd : Option Byte) : (s.latch keys rnd).faultCause = s.faultCause := rfl
@[simp] theorem State.latch_fb (s : State) (keys : KeyLevels) (rnd : Option Byte) : (s.latch keys rnd).fb = s.fb := rfl
@[simp] theorem State.latch_presents (s : State) (keys : KeyLevels) (rnd : Option Byte) : (s.latch keys rnd).presents = s.presents := rfl
@[simp] theorem State.latch_mem (s : State) (keys : KeyLevels) (rnd : Option Byte) : (s.latch keys rnd).mem = s.mem := rfl
@[simp] theorem State.latch_keys (s : State) (keys : KeyLevels) (rnd : Option Byte) : (s.latch keys rnd).keys = keys := rfl
@[simp] theorem State.latch_rnd (s : State) (keys : KeyLevels) (rnd : Option Byte) : (s.latch keys rnd).rnd = rnd := rfl
@[simp] theorem State.latch_events (s : State) (keys : KeyLevels) (rnd : Option Byte) : (s.latch keys rnd).events = s.events := rfl
@[simp] theorem State.latch_draws (s : State) (keys : KeyLevels) (rnd : Option Byte) : (s.latch keys rnd).draws = s.draws := rfl

/-! ### Reading a register after an update -/

@[simp] theorem State.readV_writeV_same (s : State) (x : Reg) (b : Byte) : (s.writeV x b).readV x = b := by
  simp [State.readV]

theorem State.readV_writeV_ne (s : State) {x r : Reg} (b : Byte) (h : r ≠ x) :
    (s.writeV x b).readV r = s.readV r := by
  have : x.val ≠ r.val := fun e => h (Fin.ext e.symm)
  simp [State.readV, this]

/-- Both cases of a read after a write at once. -/
theorem State.readV_writeV (s : State) (x r : Reg) (b : Byte) :
    (s.writeV x b).readV r = if r = x then b else s.readV r := by
  split
  · subst r; exact s.readV_writeV_same x b
  · exact s.readV_writeV_ne b ‹_›

@[simp] theorem State.readV_writePc (s : State) (a : Word) (r : Reg) : (s.writePc a).readV r = s.readV r := rfl
@[simp] theorem State.readV_writeI (s : State) (a : Word) (r : Reg) : (s.writeI a).readV r = s.readV r := rfl
@[simp] theorem State.readV_writeDT (s : State) (b : Byte) (r : Reg) : (s.writeDT b).readV r = s.readV r := rfl
@[simp] theorem State.readV_writeST (s : State) (b : Byte) (r : Reg) : (s.writeST b).readV r = s.readV r := rfl
@[simp] theorem State.readV_writeMem (s : State) (m : Memory) (r : Reg) : (s.writeMem m).readV r = s.readV r := rfl
@[simp] theorem State.readV_writeFb (s : State) (fb : Framebuffer) (r : Reg) : (s.writeFb fb).readV r = s.readV r := rfl
@[simp] theorem State.readV_countPresent (s : State) (r : Reg) : (s.countPresent).readV r = s.readV r := rfl
@[simp] theorem State.readV_writeMode (s : State) (m : Mode) (r : Reg) : (s.writeMode m).readV r = s.readV r := rfl
@[simp] theorem State.readV_writeCause (s : State) (c : FaultCause) (r : Reg) : (s.writeCause c).readV r = s.readV r := rfl
@[simp] theorem State.readV_latch (s : State) (keys : KeyLevels) (rnd : Option Byte) (r : Reg) : (s.latch keys rnd).readV r = s.readV r := rfl

@[simp] theorem State.readV_writeRegs (s : State) (v : Vector Byte 16) (r : Reg) : (s.writeRegs v).readV r = v[r] := rfl

/-- Two states with the same registers, one by one, hold the same register file. -/
theorem State.v_ext {s t : State} (h : ∀ r, t.readV r = s.readV r) : t.v = s.v := by
  ext k hk : 1
  exact h ⟨k, hk⟩

end Sys2Proof.Machine
end

