-- ==== Sys2Proof/Laws/Memory.lean ====
section
/-! SUPPORT. The laws of memory (20_memory.md R34): read after write, the frame of a write, and that every operation
keeps the canonical form. -/

namespace Sys2Proof.Machine

@[simp] theorem Memory.read_nil (a : Nat) : Memory.read [] a = 0#8 := rfl

theorem Memory.read_cons (b : Nat) (w : Byte) (m : Memory) (a : Nat) :
    Memory.read ((b, w) :: m) a = if a = b then w else Memory.read m a := rfl

/-- An address below every listed one is unlisted. -/
theorem Memory.read_of_below {m : Memory} {a : Nat} (h : ∀ c ∈ m, a < c.1) : m.read a = Config.unlistedByte := by
  induction m with
  | nil => rfl
  | cons c m ih =>
    obtain ⟨b, w⟩ := c
    have hb : a < b := h (b, w) (by simp)
    rw [Memory.read_cons, if_neg (by omega)]
    exact ih fun c hc => h c (by simp [hc])

theorem Memory.wf_cons {b : Nat} {w : Byte} {m : Memory} :
    Memory.wf ((b, w) :: m) ↔ (∀ c ∈ m, b < c.1) ∧ b < Config.memSize ∧ w ≠ Config.unlistedByte ∧ Memory.wf m := by
  simp only [Memory.wf, List.pairwise_cons, List.forall_mem_cons]
  tauto

/-! ### One entry in front -/

theorem Memory.read_entry_same {a : Nat} {v : Byte} {m : Memory} (h : ∀ c ∈ m, a < c.1) :
    (Memory.entry a v m).read a = v := by
  unfold Memory.entry
  split
  · rw [Memory.read_of_below h]; exact ‹v = _›.symm
  · simp [Memory.read_cons]

theorem Memory.read_entry_ne {a b : Nat} (v : Byte) (m : Memory) (h : b ≠ a) :
    (Memory.entry a v m).read b = m.read b := by
  unfold Memory.entry
  split
  · rfl
  · rw [Memory.read_cons, if_neg h]

theorem Memory.entry_wf {a : Nat} {v : Byte} {m : Memory} (hm : m.wf) (ha : a < Config.memSize)
    (h : ∀ c ∈ m, a < c.1) : (Memory.entry a v m).wf := by
  unfold Memory.entry
  split
  · exact hm
  · exact Memory.wf_cons.2 ⟨h, ha, ‹_›, hm⟩

theorem Memory.mem_entry {a : Nat} {v : Byte} {m : Memory} {c : Host.Cell} (h : c ∈ Memory.entry a v m) :
    c.1 = a ∨ c ∈ m := by
  unfold Memory.entry at h
  split at h
  · exact .inr h
  · rcases List.mem_cons.1 h with rfl | h
    · exact .inl rfl
    · exact .inr h

/-! ### One write -/

/-- A write adds no address but its own. -/
theorem Memory.mem_write {a : Nat} {v : Byte} {m : Memory} {c : Host.Cell} (h : c ∈ m.write a v) :
    c.1 = a ∨ c ∈ m := by
  induction m with
  | nil => exact (Memory.mem_entry h)
  | cons d m ih =>
    obtain ⟨b, w⟩ := d
    unfold Memory.write at h
    split at h
    · exact Memory.mem_entry h
    · split at h
      · exact (Memory.mem_entry h).imp_right (List.mem_cons_of_mem _)
      · rcases List.mem_cons.1 h with rfl | h
        · exact .inr (by simp)
        · exact (ih h).imp_right (List.mem_cons_of_mem _)

/-- The frame of a write: every other byte reads as before. -/
theorem Memory.read_write_ne (m : Memory) {a b : Nat} (v : Byte) (h : b ≠ a) : (m.write a v).read b = m.read b := by
  induction m with
  | nil => exact Memory.read_entry_ne v [] h
  | cons d m ih =>
    obtain ⟨c, w⟩ := d
    unfold Memory.write
    split
    · exact Memory.read_entry_ne v _ h
    · split
      · subst c
        rw [Memory.read_entry_ne v m h, Memory.read_cons, if_neg h]
      · rw [Memory.read_cons, Memory.read_cons, ih]

/-- A read after a write to the same address gives the byte written. -/
theorem Memory.read_write_same {m : Memory} (hm : m.wf) (a : Nat) (v : Byte) : (m.write a v).read a = v := by
  induction m with
  | nil => exact Memory.read_entry_same (by simp)
  | cons d m ih =>
    obtain ⟨c, w⟩ := d
    obtain ⟨hlt, -, -, hm'⟩ := Memory.wf_cons.1 hm
    unfold Memory.write
    split
    · rename_i hac
      refine Memory.read_entry_same fun e he => ?_
      rcases List.mem_cons.1 he with rfl | he
      · exact hac
      · exact hac.trans (hlt e he)
    · split
      · subst c; exact Memory.read_entry_same hlt
      · rw [Memory.read_cons, if_neg ‹_›, ih hm']

/-- A write inside the memory keeps the canonical form. -/
theorem Memory.write_wf {m : Memory} (hm : m.wf) {a : Nat} (ha : a < Config.memSize) (v : Byte) :
    (m.write a v).wf := by
  induction m with
  | nil => exact Memory.entry_wf hm ha (by simp)
  | cons d m ih =>
    obtain ⟨c, w⟩ := d
    obtain ⟨hlt, hc, hw, hm'⟩ := Memory.wf_cons.1 hm
    unfold Memory.write
    split
    · rename_i hac
      refine Memory.entry_wf hm ha fun e he => ?_
      rcases List.mem_cons.1 he with rfl | he
      · exact hac
      · exact hac.trans (hlt e he)
    · split
      · subst c; exact Memory.entry_wf hm' ha hlt
      · refine Memory.wf_cons.2 ⟨fun e he => ?_, hc, hw, ih hm'⟩
        rcases Memory.mem_write he with h | h
        · omega
        · exact hlt e h

/-! ### A run of bytes -/

/-- The frame of a run of stores: every byte outside it reads as before. -/
theorem Memory.read_store_outside (bytes : List Byte) (m : Memory) {a b : Nat}
    (h : b < a ∨ a + bytes.length ≤ b) : (m.store a bytes).read b = m.read b := by
  induction bytes generalizing m a with
  | nil => rfl
  | cons v vs ih =>
    rw [List.length_cons] at h
    unfold Memory.store
    rw [ih _ (by omega), Memory.read_write_ne _ v (by omega)]

/-- A run of stores inside the memory keeps the canonical form. -/
theorem Memory.store_wf (bytes : List Byte) {m : Memory} (hm : m.wf) {a : Nat}
    (h : a + bytes.length ≤ Config.memSize) : (m.store a bytes).wf := by
  induction bytes generalizing m a with
  | nil => exact hm
  | cons v vs ih =>
    rw [List.length_cons] at h
    exact ih (Memory.write_wf hm (by omega) v) (by omega)

/-- After a run of stores inside the memory, byte `j` of the run is at `a + j`. -/
theorem Memory.read_store_inside (bytes : List Byte) {m : Memory} (hm : m.wf) {a : Nat}
    (h : a + bytes.length ≤ Config.memSize) (j : Nat) (hj : j < bytes.length) :
    (m.store a bytes).read (a + j) = bytes[j] := by
  induction bytes generalizing m a j with
  | nil => simp at hj
  | cons v vs ih =>
    rw [List.length_cons] at h hj
    unfold Memory.store
    cases j with
    | zero => rw [Memory.read_store_outside _ _ (by omega)]; exact Memory.read_write_same hm a v
    | succ j =>
      have := ih (Memory.write_wf hm (show a < _ by omega) v) (a := a + 1) (by omega) j (by omega)
      rw [show a + (j + 1) = a + 1 + j by omega, this]; rfl

theorem Memory.reset_wf : State.reset.mem.wf := ⟨.nil, fun _ h => nomatch h⟩

end Sys2Proof.Machine
end

