-- ==== Sys2Proof/Laws/Ops.lean ====
section
/-! SUPPORT. What each shared operation can do, said once: the end of an instruction, raising, the call stack, the range
test, the key number, the fetch, the timers. Later proofs cite these instead of unfolding the operations. -/

namespace Sys2Proof.Machine

/-! ### The end of an instruction -/

theorem finish_eq (kw : Bool) (s : State) : finish kw s = .next (s.writeMode (modeAfter kw s.pc)) := rfl

theorem raise_eq (r : Raised) (s : State) : raise r s = .next (faultedWith r.cause s) := rfl

theorem modeAfter_ne_faulted (kw : Bool) (pc : Word) : modeAfter kw pc ≠ .faulted := by
  unfold modeAfter; split <;> [simp; (split <;> simp)]

theorem modeAfter_halted (kw : Bool) (pc : Word) : modeAfter kw pc = .halted ↔ 0x1000 ≤ pc.toNat := by
  unfold modeAfter; split
  · simpa using ‹_›
  · simp only [Config.memSize] at *; split <;> simp_all

theorem modeAfter_keyWait (kw : Bool) (pc : Word) : modeAfter kw pc = .keyWait ↔ pc.toNat < 0x1000 ∧ kw = true := by
  unfold modeAfter; simp only [Config.memSize]; split
  · simp; omega
  · split <;> simp_all

theorem modeAfter_running (kw : Bool) (pc : Word) :
    modeAfter kw pc = .running ↔ pc.toNat < 0x1000 ∧ kw = false := by
  unfold modeAfter; simp only [Config.memSize]; split
  · simp; omega
  · split <;> simp_all

/-- The mode update of an instruction that does not wait. -/
theorem modeFromPc_finish {s t : State} (h : finish false s = .next t) : ModeFromPc t := by
  cases h
  exact ⟨fun h => (modeAfter_halted _ _).2 h, fun h => (modeAfter_running _ _).2 ⟨h, rfl⟩⟩

/-! ### Call stack -/

theorem State.push_ok {s : State} (a : Word) (h : s.sp.val < 10) :
    s.push a = .ok { s with stack := s.stack.set s.sp.val a, sp := ⟨s.sp.val + 1, by omega⟩ } := by
  simp [State.push, h]

theorem State.push_full {s : State} (a : Word) (h : s.sp.val = 10) :
    s.push a = .error ⟨.stackOverflow, s.pc.toNat⟩ := by
  simp [State.push, h]

theorem State.pop_ok {s : State} (h : 0 < s.sp.val) :
    s.pop = .ok (s.stack[s.sp.val - 1]'(by omega), { s with sp := ⟨s.sp.val - 1, by omega⟩ }) := by
  simp [State.pop, h]

theorem State.pop_empty {s : State} (h : s.sp.val = 0) : s.pop = .error ⟨.stackUnderflow, s.pc.toNat⟩ := by
  simp [State.pop, h]

/-! ### Range test -/

theorem State.checkRange_none {s : State} {n : Nat} : s.checkRange n = none ↔ ∀ k, k < n → s.i.toNat + k ≤ 0xFFF := by
  unfold State.checkRange State.ea
  split
  · rename_i h
    simp only [reduceCtorEq, false_iff, not_forall]
    exact ⟨n - 1, by omega, by omega⟩
  · rename_i h
    simp only [true_iff]
    intro k hk; omega

theorem State.checkRange_some {s : State} {n : Nat} {r : Raised} :
    s.checkRange n = some r ↔ (∃ k, k < n ∧ 0xFFF < s.i.toNat + k) ∧ r = ⟨.memRange, max s.i.toNat 0x1000⟩ := by
  unfold State.checkRange State.ea
  split
  · rename_i h
    simp only [Option.some.injEq]
    exact ⟨fun e => ⟨⟨n - 1, by omega, by omega⟩, e.symm⟩, fun e => e.2.symm⟩
  · rename_i h
    simp only [reduceCtorEq, false_iff, not_and]
    rintro ⟨k, hk, h'⟩; omega

/-! ### Key numbers and levels -/

theorem State.keyIndex_ok {s : State} {x : Reg} (h : (s.readV x).toNat ≤ 15) :
    s.keyIndex x = .ok (s.readV x).toNat := by
  unfold State.keyIndex; rw [if_neg (by omega)]

theorem State.keyIndex_error {s : State} {x : Reg} (h : 15 < (s.readV x).toNat) :
    s.keyIndex x = .error ⟨.keyRange, (s.readV x).toNat⟩ := by
  unfold State.keyIndex; rw [if_pos h]

/-- A level pattern with no bit set below 16 is the pattern with no key pressed. -/
theorem keys_eq_zero {k : KeyLevels} (h : ∀ j, j < 16 → k.getLsbD j = false) : k = 0 := by
  apply BitVec.eq_of_getLsbD_eq
  intro j hj
  simpa using h j hj

theorem State.lowestKey_none {s : State} : s.lowestKey = none ↔ s.keys = 0 := by
  unfold State.lowestKey State.keyDown
  rw [List.find?_eq_none]
  constructor
  · intro h
    exact keys_eq_zero fun j hj => by simpa using h j (List.mem_range.2 hj)
  · intro h; simp [h]

theorem State.lowestKey_some {s : State} {k : Nat} :
    s.lowestKey = some k ↔ k < 16 ∧ s.keys.getLsbD k = true ∧ ∀ j, j < k → s.keys.getLsbD j = false := by
  unfold State.lowestKey State.keyDown
  rw [List.find?_range_eq_some]
  simp only [List.mem_range, Bool.not_eq_eq_eq_not, Bool.not_true]
  tauto

/-! ### Fetch -/

theorem fetch_ok {s : State} (h : s.pc.toNat + 1 ≤ 0xFFF) :
    fetch s = .ok (s.mem.wordAt s.pc.toNat, s.writePc (s.pc + 2)) := by
  unfold fetch; rw [if_neg (by omega)]; rfl

theorem fetch_error {s : State} (h : 0xFFF < s.pc.toNat + 1) : fetch s = .error ⟨.fetchRange, s.pc.toNat⟩ := by
  unfold fetch; rw [if_pos h]

/-! ### Timers -/

theorem countDown_toNat (t : Byte) : (countDown t).toNat = t.toNat - 1 := by
  unfold countDown
  split
  · subst t; rfl
  · rename_i h
    have h0 : t.toNat ≠ 0 := fun e => h (BitVec.eq_of_toNat_eq (by simpa using e))
    have := t.isLt
    have h1 : (1 : Byte).toNat = 1 := rfl
    rw [BitVec.toNat_sub, h1]
    omega

theorem timerTick_stopped {s : State} (h : s.mode.stopped = true) : timerTick s = s := by simp [timerTick, h]

theorem timerTick_running {s : State} (h : s.mode.stopped = false) :
    timerTick s = { s with dt := countDown s.dt, st := countDown s.st } := by
  simp [timerTick, h, State.writeDT, State.writeST]

/-! ### The skip, and the register run of Fx55 -/

theorem State.skipIf_pc (c : Bool) (s : State) : (s.skipIf c).pc = if c then s.pc + 2 else s.pc := by
  unfold State.skipIf; split <;> rfl

theorem State.skipIf_eq (c : Bool) (s : State) : s.skipIf c = { s with pc := (s.skipIf c).pc } := by
  unfold State.skipIf; split <;> rfl

theorem State.skipIf_mode (c : Bool) (s : State) : (s.skipIf c).mode = s.mode := by
  unfold State.skipIf; split <;> rfl

theorem State.regRun_length (s : State) (x : Reg) : (s.regRun x).length = x.val + 1 := by
  simp [State.regRun]

theorem State.regRun_get (s : State) (x : Reg) (j : Nat) (h : j < (s.regRun x).length) :
    (s.regRun x)[j] = s.readV ⟨j, by have := s.regRun_length x; omega⟩ := by
  simp [State.regRun, State.readV]

theorem State.loadedRegs_get (s : State) (x r : Reg) :
    (s.loadedRegs x)[r] = if r ≤ x then s.mem.read (s.i.toNat + r.val) else s.readV r := by
  simp [State.loadedRegs, State.ea]

end Sys2Proof.Machine
end

