-- ==== Sys2Proof/Laws/Cycle.lean ====
section
/-! SUPPORT. What one step does, event by event: the `cpu_tick` down to `exec` (40_cycle.md R60 to R66), the `timer_tick`
(R130) and the `reset` (R140). -/

namespace Sys2Proof.Machine

/-! ### A `cpu_tick` -/

theorem runInstruction_ok {s : State} (h : s.pc.toNat + 1 ≤ 0xFFF) :
    runInstruction s = exec (decodeWord (s.mem.wordAt s.pc.toNat)) (s.writePc (s.pc + 2)) := by
  simp only [runInstruction, fetch_ok h]

theorem runInstruction_fetchRange {s : State} (h : 0xFFF < s.pc.toNat + 1) :
    runInstruction s = .next (faultedWith .fetchRange s) := by
  simp only [runInstruction, fetch_error h, raise_eq]

theorem cpuTick_stopped {s : State} (keys : KeyLevels) (rnd : Option Byte) (h : s.mode.stopped = true) :
    cpuTick keys rnd s = .next s := by
  simp only [cpuTick, h, if_true]

theorem cpuTick_running {s : State} (keys : KeyLevels) (rnd : Option Byte) (h : s.mode.stopped = false) :
    cpuTick keys rnd s = runInstruction (s.latch keys rnd) := by
  simp only [cpuTick, h, Bool.false_eq_true, if_false]

/-! ### Runs -/

@[simp] theorem run_zero (s : State) : core.run 0 s = .next s := rfl

theorem run_next {s t : State} (n : Nat) (h : step s = .next t) : core.run (n + 1) s = core.run n t := by
  have h' : core.step s = .next t := h
  simp only [Host.Core.run, h']

/-! ### A step, by the event at the head of the list -/

theorem step_noEvent {s : State} (h : s.events = []) :
    step s = cpuTick s.keys none { s with draws := s.draws + 1 } := by
  simp only [step, eventStep, nextEvent, h, perform]

theorem step_cpuTick {s : State} {keys : KeyLevels} {rnd : Byte} {rest : List Event}
    (h : s.events = .cpuTick keys rnd :: rest) : step s = cpuTick keys (some rnd) { s with events := rest } := by
  simp only [step, eventStep, nextEvent, h, perform]

theorem step_timerTick {s : State} {rest : List Event} (h : s.events = .timerTick :: rest) :
    step s = .next (timerTick { s with events := rest }) := by
  simp only [step, eventStep, nextEvent, h, perform]

theorem step_reset {s : State} {rest : List Event} (h : s.events = .reset :: rest) :
    step s = .next (resetBlock { s with events := rest }) := by
  simp only [step, eventStep, nextEvent, h, perform]

end Sys2Proof.Machine
end

