-- ==== Sys2Proof/Laws/Decode.lean ====
section
/-! SUPPORT. The fields of a word laid out in each format (30_encoding.md R46), and the bytes of a word (R30). -/

namespace Sys2Proof

/-! ### Bits of the formats -/

theorem getLsbD_formatNNN (f : BitVec 4) (nnn : Addr12) (k : Nat) :
    (formatNNN f nnn).getLsbD k = if k < 12 then nnn.getLsbD k else f.getLsbD (k - 12) := BitVec.getLsbD_append

theorem getLsbD_formatXNN (f : BitVec 4) (x : Reg) (nn : Byte) (k : Nat) :
    (formatXNN f x nn).getLsbD k =
      if k < 8 then nn.getLsbD k else if k < 12 then (regBits x).getLsbD (k - 8) else f.getLsbD (k - 12) := by
  refine (BitVec.getLsbD_append (x := f ++ regBits x) (y := nn) (i := k)).trans ?_
  rw [BitVec.getLsbD_append]
  split
  · rfl
  · rw [Nat.sub_sub]; exact if_congr (by omega) rfl rfl

theorem getLsbD_formatXYN (f : BitVec 4) (x y : Reg) (n : BitVec 4) (k : Nat) :
    (formatXYN f x y n).getLsbD k =
      if k < 4 then n.getLsbD k else if k < 8 then (regBits y).getLsbD (k - 4)
      else if k < 12 then (regBits x).getLsbD (k - 8) else f.getLsbD (k - 12) := by
  refine (BitVec.getLsbD_append (x := f ++ regBits x ++ regBits y) (y := n) (i := k)).trans ?_
  rw [BitVec.getLsbD_append, BitVec.getLsbD_append]
  split
  · rfl
  · simp only [Nat.sub_sub]
    exact if_congr (by omega) rfl (if_congr (by omega) rfl rfl)

/-! ### Fields of the formats -/

@[simp] theorem family_formatNNN (f : BitVec 4) (nnn : Addr12) : family (formatNNN f nnn) = f := by
  apply BitVec.eq_of_getLsbD_eq; intro k hk
  simp [family, getLsbD_formatNNN, hk]

@[simp] theorem fieldNNN_formatNNN (f : BitVec 4) (nnn : Addr12) : fieldNNN (formatNNN f nnn) = nnn := by
  apply BitVec.eq_of_getLsbD_eq; intro k hk
  simp [fieldNNN, getLsbD_formatNNN, hk]

@[simp] theorem family_formatXNN (f : BitVec 4) (x : Reg) (nn : Byte) : family (formatXNN f x nn) = f := by
  apply BitVec.eq_of_getLsbD_eq; intro k hk
  simp only [family, BitVec.getLsbD_extractLsb', getLsbD_formatXNN]
  rw [if_neg (by omega), if_neg (by omega)]; simp [hk]

@[simp] theorem fieldNN_formatXNN (f : BitVec 4) (x : Reg) (nn : Byte) : fieldNN (formatXNN f x nn) = nn := by
  apply BitVec.eq_of_getLsbD_eq; intro k hk
  simp [fieldNN, getLsbD_formatXNN, hk]

@[simp] theorem fieldX_formatXNN (f : BitVec 4) (x : Reg) (nn : Byte) : fieldX (formatXNN f x nn) = x := by
  have h : xBits (formatXNN f x nn) = regBits x := by
    apply BitVec.eq_of_getLsbD_eq; intro k hk
    simp only [xBits, BitVec.getLsbD_extractLsb', getLsbD_formatXNN]
    rw [if_neg (by omega), if_pos (by omega)]; simp [hk]
  rw [fieldX, h]; rfl

@[simp] theorem family_formatXYN (f : BitVec 4) (x y : Reg) (n : BitVec 4) : family (formatXYN f x y n) = f := by
  apply BitVec.eq_of_getLsbD_eq; intro k hk
  simp only [family, BitVec.getLsbD_extractLsb', getLsbD_formatXYN]
  rw [if_neg (by omega), if_neg (by omega), if_neg (by omega)]; simp [hk]

@[simp] theorem fieldN_formatXYN (f : BitVec 4) (x y : Reg) (n : BitVec 4) : fieldN (formatXYN f x y n) = n := by
  apply BitVec.eq_of_getLsbD_eq; intro k hk
  simp [fieldN, getLsbD_formatXYN, hk]

@[simp] theorem fieldX_formatXYN (f : BitVec 4) (x y : Reg) (n : BitVec 4) : fieldX (formatXYN f x y n) = x := by
  have h : xBits (formatXYN f x y n) = regBits x := by
    apply BitVec.eq_of_getLsbD_eq; intro k hk
    simp only [xBits, BitVec.getLsbD_extractLsb', getLsbD_formatXYN]
    rw [if_neg (by omega), if_neg (by omega), if_pos (by omega)]; simp [hk]
  rw [fieldX, h]; rfl

@[simp] theorem fieldY_formatXYN (f : BitVec 4) (x y : Reg) (n : BitVec 4) : fieldY (formatXYN f x y n) = y := by
  have h : yBits (formatXYN f x y n) = regBits y := by
    apply BitVec.eq_of_getLsbD_eq; intro k hk
    simp only [yBits, BitVec.getLsbD_extractLsb', getLsbD_formatXYN]
    rw [if_neg (by omega), if_pos (by omega)]; simp [hk]
  rw [fieldY, h]; rfl

/-! ### Bytes -/

/-- The two bytes of a word put together give the word. -/
@[simp] theorem wordOfBytes_bytes (w : Word) : wordOfBytes (highByte w) (lowByte w) = w := by
  apply BitVec.eq_of_getLsbD_eq; intro k hk
  refine (BitVec.getLsbD_append (x := highByte w) (y := lowByte w) (i := k)).trans ?_
  simp only [highByte, lowByte, BitVec.getLsbD_extractLsb']
  split
  · simp_all
  · rename_i h
    rw [show 8 + (k - 8) = k by omega]
    simp; omega

theorem wordOfBytes_toNat (hi lo : Byte) : (wordOfBytes hi lo).toNat = hi.toNat * 256 + lo.toNat := by
  have : (wordOfBytes hi lo).toNat = hi.toNat <<< 8 ||| lo.toNat := BitVec.toNat_append hi lo
  rw [this, Nat.shiftLeft_eq, Nat.mul_comm, ← Nat.two_pow_add_eq_or_of_lt lo.isLt]

/-! ### Words as four digits, and masks (R49) -/

/-- A word from its four hexadecimal digits. -/
def digits (a b c d : BitVec 4) : Word := a ++ b ++ c ++ d

theorem getLsbD_digits (a b c d : BitVec 4) (k : Nat) :
    (digits a b c d).getLsbD k =
      if k < 4 then d.getLsbD k else if k < 8 then c.getLsbD (k - 4)
      else if k < 12 then b.getLsbD (k - 8) else a.getLsbD (k - 12) := by
  refine (BitVec.getLsbD_append (x := a ++ b ++ c) (y := d) (i := k)).trans ?_
  rw [BitVec.getLsbD_append, BitVec.getLsbD_append]
  split
  · rfl
  · simp only [Nat.sub_sub]
    exact if_congr (by omega) rfl (if_congr (by omega) rfl rfl)

theorem family_digits (a b c d : BitVec 4) : family (digits a b c d) = a := by
  apply BitVec.eq_of_getLsbD_eq; intro k hk
  simp only [family, BitVec.getLsbD_extractLsb', getLsbD_digits]
  rw [if_neg (by omega), if_neg (by omega), if_neg (by omega)]; simp [hk]

theorem xBits_digits (a b c d : BitVec 4) : xBits (digits a b c d) = b := by
  apply BitVec.eq_of_getLsbD_eq; intro k hk
  simp only [xBits, BitVec.getLsbD_extractLsb', getLsbD_digits]
  rw [if_neg (by omega), if_neg (by omega), if_pos (by omega)]; simp [hk]

theorem yBits_digits (a b c d : BitVec 4) : yBits (digits a b c d) = c := by
  apply BitVec.eq_of_getLsbD_eq; intro k hk
  simp only [yBits, BitVec.getLsbD_extractLsb', getLsbD_digits]
  rw [if_neg (by omega), if_pos (by omega)]; simp [hk]

theorem fieldN_digits (a b c d : BitVec 4) : fieldN (digits a b c d) = d := by
  apply BitVec.eq_of_getLsbD_eq; intro k hk
  simp only [fieldN, BitVec.getLsbD_extractLsb', getLsbD_digits]
  rw [if_pos (by omega)]; simp [hk]

/-- A word is its four digits. -/
theorem digits_fields (w : Word) : digits (family w) (xBits w) (yBits w) (fieldN w) = w := by
  apply BitVec.eq_of_getLsbD_eq; intro k hk
  simp only [getLsbD_digits, family, xBits, yBits, fieldN, BitVec.getLsbD_extractLsb']
  split
  · simp [*]
  · split
    · rw [show 4 + (k - 4) = k by omega]; simp; omega
    · split
      · rw [show 8 + (k - 8) = k by omega]; simp; omega
      · rw [show 12 + (k - 12) = k by omega]; simp; omega

theorem digits_inj {a b c d a' b' c' d' : BitVec 4} :
    digits a b c d = digits a' b' c' d' ↔ a = a' ∧ b = b' ∧ c = c' ∧ d = d' := by
  constructor
  · intro h
    refine ⟨?_, ?_, ?_, ?_⟩
    · simpa only [family_digits] using congrArg family h
    · simpa only [xBits_digits] using congrArg xBits h
    · simpa only [yBits_digits] using congrArg yBits h
    · simpa only [fieldN_digits] using congrArg fieldN h
  · rintro ⟨rfl, rfl, rfl, rfl⟩; rfl

theorem digits_and (a b c d a' b' c' d' : BitVec 4) :
    digits a b c d &&& digits a' b' c' d' = digits (a &&& a') (b &&& b') (c &&& c') (d &&& d') := by
  apply BitVec.eq_of_getLsbD_eq; intro k _
  simp only [BitVec.getLsbD_and, getLsbD_digits]
  split
  · rfl
  · split
    · rfl
    · split <;> rfl

/-- A masked word, digit by digit. -/
theorem and_digits_eq (w : Word) (a b c d a' b' c' d' : BitVec 4) :
    w &&& digits a b c d = digits a' b' c' d' ↔
      family w &&& a = a' ∧ xBits w &&& b = b' ∧ yBits w &&& c = c' ∧ fieldN w &&& d = d' := by
  conv_lhs => rw [← digits_fields w, digits_and, digits_inj]

/-- Mask 0xF000: the family alone. -/
theorem mask_family (w : Word) (a : BitVec 4) : w &&& 0xF000#16 = digits a 0 0 0 ↔ family w = a := by
  have h : ∀ z : BitVec 4, z &&& 0xF#4 = z ∧ z &&& 0#4 = 0#4 := by decide
  rw [show (0xF000#16 : Word) = digits 0xF 0 0 0 by decide, and_digits_eq]
  simp [h]

/-- Mask 0xF00F: the family and `n`. -/
theorem mask_family_n (w : Word) (a d : BitVec 4) :
    w &&& 0xF00F#16 = digits a 0 0 d ↔ family w = a ∧ fieldN w = d := by
  have h : ∀ z : BitVec 4, z &&& 0xF#4 = z ∧ z &&& 0#4 = 0#4 := by decide
  rw [show (0xF00F#16 : Word) = digits 0xF 0 0 0xF by decide, and_digits_eq]
  simp [h]

theorem fieldNN_eq (w : Word) : fieldNN w = yBits w ++ fieldN w := by
  apply BitVec.eq_of_getLsbD_eq; intro k hk
  simp only [fieldNN, yBits, fieldN, BitVec.getLsbD_append, BitVec.getLsbD_extractLsb']
  split
  · simp [hk, ‹k < 4›]
  · rw [show 4 + (k - 4) = k by omega]; simp [hk, show k - 4 < 4 by omega]

theorem append_inj4 {a b c d : BitVec 4} : a ++ b = c ++ d ↔ a = c ∧ b = d := by
  constructor
  · intro h
    have bits : ∀ k, (a ++ b).getLsbD k = (c ++ d).getLsbD k := fun k => by rw [h]
    simp only [BitVec.getLsbD_append] at bits
    constructor
    · apply BitVec.eq_of_getLsbD_eq; intro k _
      have := bits (4 + k)
      rwa [if_neg (by omega), if_neg (by omega), Nat.add_sub_cancel_left] at this
    · apply BitVec.eq_of_getLsbD_eq; intro k hk
      have := bits k
      rwa [if_pos hk, if_pos hk] at this
  · rintro ⟨rfl, rfl⟩; rfl

/-- Mask 0xF0FF: the family and `nn`. -/
theorem mask_family_nn (w : Word) (a c d : BitVec 4) :
    w &&& 0xF0FF#16 = digits a 0 c d ↔ family w = a ∧ fieldNN w = c ++ d := by
  have h : ∀ z : BitVec 4, z &&& 0xF#4 = z ∧ z &&& 0#4 = 0#4 := by decide
  rw [show (0xF0FF#16 : Word) = digits 0xF 0 0xF 0xF by decide, and_digits_eq, fieldNN_eq, append_inj4]
  simp [h]

end Sys2Proof
end

