-- ==== Sys2Proof/Laws/Display.lean ====
section
/-! SUPPORT. The framebuffer pixel by pixel: toggling, clearing, and what the column and row loops of a sprite draw do
to each pixel and to the collision (44_display.md R107). -/

namespace Sys2Proof.Machine

theorem Framebuffer.pixel_outside (fb : Framebuffer) {r c : Nat} (h : ¬ (r < 32 ∧ c < 64)) :
    Framebuffer.pixel fb r c = false := by
  simp [Framebuffer.pixel, h]

@[simp] theorem Framebuffer.pixel_blank (r c : Nat) : Framebuffer.pixel Framebuffer.blank r c = false := by
  unfold Framebuffer.pixel Framebuffer.blank
  split <;> simp

/-- Toggling flips its own pixel and no other; outside the grid it does nothing. -/
theorem Framebuffer.pixel_toggle (fb : Framebuffer) (r c r' c' : Nat) :
    Framebuffer.pixel (Framebuffer.toggle fb r c) r' c' =
      (Framebuffer.pixel fb r' c' != decide (r < 32 ∧ c < 64 ∧ r' = r ∧ c' = c)) := by
  unfold Framebuffer.toggle
  by_cases h : r < 32 ∧ c < 64
  · rw [dif_pos h]
    by_cases h' : r' < 32 ∧ c' < 64
    · simp only [Framebuffer.pixel, h', and_self, dite_true, Vector.getElem_set]
      by_cases hr : r = r'
      · subst hr
        simp only [if_true, Vector.getElem_set]
        by_cases hc : c = c'
        · subst hc; simp [h.2, h'.1]
        · simp [hc, Ne.symm hc]
      · simp [hr, Ne.symm hr]
    · rw [Framebuffer.pixel_outside _ h', Framebuffer.pixel_outside _ h']
      have : ¬ (r < 32 ∧ c < 64 ∧ r' = r ∧ c' = c) := by rintro ⟨a, b, rfl, rfl⟩; exact h' ⟨a, b⟩
      simp [this]
  · rw [dif_neg h]
    have : ¬ (r < 32 ∧ c < 64 ∧ r' = r ∧ c' = c) := by rintro ⟨a, b, -⟩; exact h ⟨a, b⟩
    simp [this]

/-- Toggling leaves every other pixel. -/
theorem Framebuffer.pixel_toggle_ne (fb : Framebuffer) {r c r' c' : Nat} (h : ¬ (r' = r ∧ c' = c)) :
    Framebuffer.pixel (Framebuffer.toggle fb r c) r' c' = Framebuffer.pixel fb r' c' := by
  rw [Framebuffer.pixel_toggle, decide_eq_false (by tauto), Bool.bne_false]

/-- A framebuffer is its pixels. -/
theorem Framebuffer.ext_pixels {f g : Framebuffer}
    (h : ∀ r c, r < 32 → c < 64 → Framebuffer.pixel f r c = Framebuffer.pixel g r c) : f = g := by
  ext r hr c hc
  have := h r c hr hc
  simpa [Framebuffer.pixel, hr, hc] using this

/-! ### The columns of one row -/

/-- The column loop from column `k` on: each pixel under a set bit is toggled once, and the collision is marked when
one of them was on. -/
theorem drawCols_spec (b : Byte) {r : Nat} (hr : r < 32) (x0 k n : Nat) (K : Canvas) :
    (∀ r' c', r' < 32 → c' < 64 → (drawCols b r x0 (List.range' k n) K).1.pixel r' c' =
      (K.1.pixel r' c' != (decide (r' = r ∧ x0 + k ≤ c' ∧ c' < x0 + k + n) && b.getLsbD (7 - (c' - x0))))) ∧
    ((drawCols b r x0 (List.range' k n) K).2 = true ↔ K.2 = true ∨
      ∃ c', c' < 64 ∧ x0 + k ≤ c' ∧ c' < x0 + k + n ∧ b.getLsbD (7 - (c' - x0)) = true ∧ K.1.pixel r c' = true) := by
  induction n generalizing k K with
  | zero => 
    refine ⟨fun r' c' _ _ => ?_, ?_⟩
    · have : ¬ (r' = r ∧ x0 + k ≤ c' ∧ c' < x0 + k) := by omega
      simp [drawCols, this]
    · simp only [List.range'_zero, drawCols, Nat.add_zero, iff_self_or, forall_exists_index]
      rintro c' ⟨_, h1, h2, _⟩; omega
  | succ n ih =>
    rw [List.range'_succ, drawCols]
    by_cases hx : Config.fbWidth ≤ x0 + k
    · rw [if_pos hx]
      simp only [Config.fbWidth] at hx
      refine ⟨fun r' c' _ hc' => ?_, ?_⟩
      · have : ¬ (r' = r ∧ x0 + k ≤ c' ∧ c' < x0 + k + (n + 1)) := by omega
        simp [this]
      · simp only [iff_self_or, forall_exists_index]
        rintro c' ⟨_, h1, h2, _⟩; omega
    · rw [if_neg hx]
      simp only [Config.fbWidth, not_le] at hx
      by_cases hb : b.getLsbD (7 - k) = true
      · rw [if_pos hb]
        obtain ⟨ih1, ih2⟩ := ih (k + 1) (plot K r (x0 + k))
        refine ⟨fun r' c' hr' hc' => ?_, ?_⟩
        · rw [ih1 r' c' hr' hc']
          simp only [plot, Framebuffer.pixel_toggle]
          by_cases h1 : r' = r ∧ c' = x0 + k
          · obtain ⟨rfl, rfl⟩ := h1
            have e1 : ¬ (x0 + (k + 1) ≤ x0 + k) := by omega
            have e3 : x0 + k - x0 = k := by omega
            simp [e1, e3, hb, hr, hx]
          · have e1 : ¬ (r < 32 ∧ x0 + k < 64 ∧ r' = r ∧ c' = x0 + k) := by tauto
            have e2 : (r' = r ∧ x0 + k ≤ c' ∧ c' < x0 + k + (n + 1)) ↔
                (r' = r ∧ x0 + (k + 1) ≤ c' ∧ c' < x0 + (k + 1) + n) := by omega
            simp only [e1, e2, decide_false, Bool.bne_false]
        · rw [ih2]
          simp only [plot, Bool.or_eq_true]
          constructor
          · rintro ((h | h) | ⟨c', h1, h2, h3, h4, h5⟩)
            · exact .inl h
            · refine .inr ⟨x0 + k, hx, le_refl _, by omega, ?_, h⟩
              rwa [show x0 + k - x0 = k by omega]
            · refine .inr ⟨c', h1, by omega, by omega, h4, ?_⟩
              rwa [Framebuffer.pixel_toggle_ne _ (by omega)] at h5
          · rintro (h | ⟨c', h1, h2, h3, h4, h5⟩)
            · exact .inl (.inl h)
            · by_cases hc : c' = x0 + k
              · subst hc; exact .inl (.inr h5)
              · refine .inr ⟨c', h1, by omega, by omega, h4, ?_⟩
                rwa [Framebuffer.pixel_toggle_ne _ (by omega)]
      · rw [if_neg hb]
        obtain ⟨ih1, ih2⟩ := ih (k + 1) K
        have hkey : ∀ c', b.getLsbD (7 - (c' - x0)) = true → x0 + k ≤ c' → x0 + (k + 1) ≤ c' := by
          intro c' h1 h2
          by_contra h3
          have : c' - x0 = k := by omega
          rw [this] at h1; exact hb h1
        refine ⟨fun r' c' hr' hc' => ?_, ?_⟩
        · rw [ih1 r' c' hr' hc']
          cases hbit : b.getLsbD (7 - (c' - x0))
          · simp
          · have e : (r' = r ∧ x0 + k ≤ c' ∧ c' < x0 + k + (n + 1)) ↔
                (r' = r ∧ x0 + (k + 1) ≤ c' ∧ c' < x0 + (k + 1) + n) := by
              have := hkey c' hbit
              omega
            simp only [e]
        · rw [ih2]
          refine or_congr_right (exists_congr fun c' => ?_)
          constructor
          · rintro ⟨h1, h2, h3, h4, h5⟩; exact ⟨h1, by omega, by omega, h4, h5⟩
          · rintro ⟨h1, h2, h3, h4, h5⟩; exact ⟨h1, hkey c' h4 h2, by omega, h4, h5⟩

/-- One whole sprite row. -/
theorem drawRow_spec (b : Byte) {r : Nat} (hr : r < 32) (x0 : Nat) (K : Canvas) :
    (∀ r' c', r' < 32 → c' < 64 → (drawCols b r x0 (List.range 8) K).1.pixel r' c' =
      (K.1.pixel r' c' != (decide (r' = r ∧ x0 ≤ c' ∧ c' < x0 + 8) && b.getLsbD (7 - (c' - x0))))) ∧
    ((drawCols b r x0 (List.range 8) K).2 = true ↔ K.2 = true ∨
      ∃ c', c' < 64 ∧ x0 ≤ c' ∧ c' < x0 + 8 ∧ b.getLsbD (7 - (c' - x0)) = true ∧ K.1.pixel r c' = true) := by
  have h := drawCols_spec b hr x0 0 8 K
  rw [← List.range_eq_range'] at h
  exact h

/-! ### The rows -/

/-- The bit that row `r` of a sprite at `a`, starting in row `y0` and column `x0`, has for column `c`. -/
def rowBit (m : Memory) (a x0 y0 r c : Nat) : Bool :=
  decide (x0 ≤ c ∧ c < x0 + 8) && (m.read (a + (r - y0))).getLsbD (7 - (c - x0))

theorem rowBit_eq_true {m : Memory} {a x0 y0 r c : Nat} :
    rowBit m a x0 y0 r c = true ↔
      x0 ≤ c ∧ c < x0 + 8 ∧ (m.read (a + (r - y0))).getLsbD (7 - (c - x0)) = true := by
  simp only [rowBit, Bool.and_eq_true, decide_eq_true_eq, and_assoc]

theorem spriteBit_eq (m : Memory) (a x0 y0 n r c : Nat) :
    spriteBit m a x0 y0 n r c = (decide (y0 ≤ r ∧ r < y0 + n) && rowBit m a x0 y0 r c) := by
  unfold spriteBit rowBit
  rw [← Bool.and_assoc, ← Bool.decide_and]
  congr 2
  exact propext (by tauto)

/-- The row loop from row `k` on: each pixel under a set bit of a row it draws is toggled once, and the collision is
marked when one of them was on. -/
theorem drawRows_spec (m : Memory) (a x0 y0 k n : Nat) (K : Canvas) :
    (∀ r c, r < 32 → c < 64 → (drawRows m a x0 y0 (List.range' k n) K).1.pixel r c =
      (K.1.pixel r c != (decide (y0 + k ≤ r ∧ r < y0 + k + n) && rowBit m a x0 y0 r c))) ∧
    ((drawRows m a x0 y0 (List.range' k n) K).2 = true ↔ K.2 = true ∨
      ∃ r c, r < 32 ∧ c < 64 ∧ y0 + k ≤ r ∧ r < y0 + k + n ∧ rowBit m a x0 y0 r c = true ∧ K.1.pixel r c = true) := by
  induction n generalizing k K with
  | zero =>
    refine ⟨fun r c _ _ => ?_, ?_⟩
    · have : ¬ (y0 + k ≤ r ∧ r < y0 + k) := by omega
      simp [drawRows, this]
    · simp only [List.range'_zero, drawRows, Nat.add_zero, iff_self_or, forall_exists_index]
      rintro r c ⟨_, _, h1, h2, _⟩; omega
  | succ n ih =>
    rw [List.range'_succ, drawRows]
    by_cases hy : Config.fbHeight ≤ y0 + k
    · rw [if_pos hy]
      simp only [Config.fbHeight] at hy
      refine ⟨fun r c hr _ => ?_, ?_⟩
      · have : ¬ (y0 + k ≤ r ∧ r < y0 + k + (n + 1)) := by omega
        simp [this]
      · simp only [iff_self_or, forall_exists_index]
        rintro r c ⟨_, _, h1, h2, _⟩; omega
    · rw [if_neg hy]
      simp only [Config.fbHeight, not_le] at hy
      obtain ⟨row1, row2⟩ := drawRow_spec (m.read (a + k)) hy x0 K
      obtain ⟨ih1, ih2⟩ := ih (k + 1) (drawCols (m.read (a + k)) (y0 + k) x0 (List.range 8) K)
      have hsub : y0 + k - y0 = k := by omega
      refine ⟨fun r c hr hc => ?_, ?_⟩
      · rw [ih1 r c hr hc, row1 r c hr hc]
        by_cases h : r = y0 + k
        · subst h
          have e1 : ¬ (y0 + (k + 1) ≤ y0 + k) := by omega
          simp [e1, rowBit, hsub]
        · have e1 : ¬ (r = y0 + k ∧ x0 ≤ c ∧ c < x0 + 8) := by tauto
          have e2 : (y0 + k ≤ r ∧ r < y0 + k + (n + 1)) ↔ (y0 + (k + 1) ≤ r ∧ r < y0 + (k + 1) + n) := by omega
          simp only [e1, e2, decide_false, Bool.false_and, Bool.bne_false]
      · have same : ∀ r c, r < 32 → c < 64 → r ≠ y0 + k →
            (drawCols (m.read (a + k)) (y0 + k) x0 (List.range 8) K).1.pixel r c = K.1.pixel r c := by
          intro r c hr hc h
          rw [row1 r c hr hc, decide_eq_false (by tauto), Bool.false_and, Bool.bne_false]
        rw [ih2, row2]
        constructor
        · rintro ((h | ⟨c, h1, h2, h3, h4, h5⟩) | ⟨r, c, h1, h2, h3, h4, h5, h6⟩)
          · exact .inl h
          · exact .inr ⟨y0 + k, c, hy, h1, le_refl _, by omega, rowBit_eq_true.2 ⟨h2, h3, by rwa [hsub]⟩, h5⟩
          · exact .inr ⟨r, c, h1, h2, by omega, by omega, h5, by rwa [same r c h1 h2 (by omega)] at h6⟩
        · rintro (h | ⟨r, c, h1, h2, h3, h4, h5, h6⟩)
          · exact .inl (.inl h)
          · by_cases h : r = y0 + k
            · subst h
              obtain ⟨g1, g2, g3⟩ := rowBit_eq_true.1 h5
              exact .inl (.inr ⟨c, h2, g1, g2, by rwa [hsub] at g3, h6⟩)
            · exact .inr ⟨r, c, h1, h2, by omega, by omega, h5, by rwa [same r c h1 h2 h]⟩

end Sys2Proof.Machine
end

