-- ==== Sys2Proof/Laws/Exec.lean ====
section
/-! SUPPORT. What the execution of any instruction can do, said once: it raises its fault of 60_exceptions.md R121 and
nothing else happens, or it changes only what `touches` names and ends with the mode update of R65. Invariants of the
step are derived from these lemmas, not by unfolding the meanings. -/

namespace Sys2Proof.Machine

/-- What each instruction may change when it raises nothing (`MODE` apart). -/
def touches (i : Instr) (s : State) : Touched :=
  match i with
  | .cls => { fb := true }
  | .ret => { pc := true, sp := true }
  | .jp _ | .jpV0 _ | .seImm _ _ | .sneImm _ _ | .seReg _ _ | .sneReg _ _ | .skp _ | .sknp _ => { pc := true }
  | .call _ => { pc := true, sp := true, slot := fun k => k == s.sp.val }
  | .ldImm x _ | .addImm x _ | .ldReg x _ | .or x _ | .and x _ | .xor x _ | .rnd x _ | .ldVxDT x =>
    { v := fun r => r == x }
  | .addReg x _ | .sub x _ | .shr x | .subn x _ | .shl x => { v := fun r => r == x || r == Reg.vf }
  | .ldI _ | .ldF _ => { i := true }
  | .addI _ => { i := true, v := fun r => r == Reg.vf }
  | .drw _ _ _ => { v := fun r => r == Reg.vf, fb := true, presents := true }
  | .ldVxK x => { v := fun r => r == x, pc := true }
  | .ldDTVx _ => { dt := true }
  | .ldSTVx _ => { st := true }
  | .ldB _ => { mem := fun a => decide (s.i.toNat ≤ a ∧ a < s.i.toNat + 3) }
  | .ldMemVx x => { mem := fun a => decide (s.i.toNat ≤ a ∧ a < s.i.toNat + (x.val + 1)) }
  | .ldVxMem x => { v := fun r => decide (r ≤ x) }
  | .dw _ => {}

/-- `PC` after an instruction that raises nothing (`PC` on entry is past the instruction). -/
def nextPc (i : Instr) (s : State) : Word :=
  match i with
  | .jp nnn | .call nnn => zext12 nnn
  | .jpV0 nnn => zext12 nnn + zext8 (s.readV 0)
  | .ret => if h : 0 < s.sp.val then s.stack[s.sp.val - 1]'(by omega) else s.pc
  | .seImm x nn => if s.readV x = nn then s.pc + 2 else s.pc
  | .sneImm x nn => if s.readV x ≠ nn then s.pc + 2 else s.pc
  | .seReg x y => if s.readV x = s.readV y then s.pc + 2 else s.pc
  | .sneReg x y => if s.readV x ≠ s.readV y then s.pc + 2 else s.pc
  | .skp x => if s.keyDown (s.readV x).toNat = true then s.pc + 2 else s.pc
  | .sknp x => if s.keyDown (s.readV x).toNat = false then s.pc + 2 else s.pc
  | .ldVxK _ => if s.keys = 0 then s.pc - 2 else s.pc
  | _ => s.pc

/-! ### Frames of the operations -/

theorem Frame.refl (w : Touched) (s : State) : Frame w s s := by constructor <;> simp

theorem Frame.writeV (s : State) (x : Reg) (b : Byte) : Frame { v := fun r => r == x } s (s.writeV x b) := by
  constructor <;> simp
  exact fun r h => s.readV_writeV_ne b h

theorem Frame.writeFlagThenResult (s : State) (x : Reg) (f b : Byte) :
    Frame { v := fun r => r == x || r == Reg.vf } s (s.writeFlagThenResult x f b) := by
  unfold State.writeFlagThenResult
  constructor <;> simp
  intro r h1 h2
  rw [State.readV_writeV_ne _ _ h1, State.readV_writeV_ne _ _ h2]

theorem Frame.writePc (s : State) (a : Word) : Frame { pc := true } s (s.writePc a) := by constructor <;> simp

theorem Frame.skipIf (s : State) (c : Bool) : Frame { pc := true } s (s.skipIf c) := by
  rw [State.skipIf_eq]; constructor <;> simp [State.readV]

theorem Frame.writeI (s : State) (a : Word) : Frame { i := true } s (s.writeI a) := by constructor <;> simp

theorem Frame.store (s : State) (bytes : List Byte) :
    Frame { mem := fun a => decide (s.i.toNat ≤ a ∧ a < s.i.toNat + bytes.length) } s
      (s.writeMem (s.mem.store s.i.toNat bytes)) := by
  constructor <;> simp
  exact fun a h => Memory.read_store_outside _ _ (by omega)

/-! ### The range test and the fault condition -/

theorem touchesBeyondMemory_iff {i : Instr} {s : State} :
    touchesBeyondMemory i s ↔ s.checkRange (bytesTouched i s) = some ⟨.memRange, max s.i.toNat 0x1000⟩ := by
  rw [State.checkRange_some]; exact ⟨fun h => ⟨h, rfl⟩, fun h => h.1⟩

theorem not_touchesBeyondMemory_iff {i : Instr} {s : State} :
    ¬ touchesBeyondMemory i s ↔ s.checkRange (bytesTouched i s) = none := by
  rw [State.checkRange_none]; unfold touchesBeyondMemory
  constructor
  · intro h k hk
    by_contra h'
    exact h ⟨k, hk, by omega⟩
  · rintro h ⟨k, hk, h'⟩
    have := h k hk
    omega

theorem bytesTouched_drw (x y : Reg) (n : BitVec 4) (s : State) :
    bytesTouched (.drw x y n) s = s.drawCount y n := rfl

/-! ### What an instruction can do -/

/-- The end of an instruction that raises nothing: the state `u` it has made, and whether it waits for a key. -/
structure Completes (i : Instr) (s u : State) (wait : Bool) : Prop where
  noFault : ∀ c, ¬ RaisesFault i s c
  result : exec i s = finish wait u
  mode : u.mode = s.mode
  frame : Frame (touches i s) s u
  waits : wait = true ↔ (∃ x, i = .ldVxK x) ∧ s.keys = 0
  pc : u.pc = nextPc i s
  memory : s.mem.wf → u.mem.wf
  pushed : ∀ nnn, i = .call nnn → ∃ h : s.sp.val < 10, u.stack[s.sp.val]'h = s.pc ∧ u.sp.val = s.sp.val + 1
  popped : i = .ret → 0 < s.sp.val ∧ u.sp.val = s.sp.val - 1

/-- Every instruction either raises a fault of R121 and changes nothing else, or completes. -/
theorem exec_cases (i : Instr) (s : State) :
    (∃ c, RaisesFault i s c ∧ exec i s = .next (faultedWith c s)) ∨ ∃ u wait, Completes i s u wait := by
  have plain : ∀ u, (∀ c, ¬ RaisesFault i s c) → exec i s = finish false u → u.mode = s.mode →
      Frame (touches i s) s u → u.pc = nextPc i s → (s.mem.wf → u.mem.wf) →
      (∀ x, i ≠ .ldVxK x) ∧ (∀ nnn, i ≠ .call nnn) ∧ i ≠ .ret →
      (∃ c, RaisesFault i s c ∧ exec i s = .next (faultedWith c s)) ∨ ∃ u wait, Completes i s u wait :=
    fun u h1 h2 h3 h4 h5 h6 h7 => .inr ⟨u, false, h1, h2, h3, h4, by simpa using fun x e => absurd e (h7.1 x), h5, h6,
      fun x e => absurd e (h7.2.1 x), fun e => absurd e h7.2.2⟩
  have ranged : ∀ u, (∀ c, RaisesFault i s c ↔ touchesBeyondMemory i s ∧ c = .memRange) →
      (∀ r, s.checkRange (bytesTouched i s) = some r → exec i s = raise r s) →
      (s.checkRange (bytesTouched i s) = none → exec i s = finish false u) →
      u.mode = s.mode → Frame (touches i s) s u → u.pc = nextPc i s →
      ((∀ k, k < bytesTouched i s → s.i.toNat + k ≤ 0xFFF) → s.mem.wf → u.mem.wf) →
      (∀ x, i ≠ .ldVxK x) ∧ (∀ nnn, i ≠ .call nnn) ∧ i ≠ .ret →
      (∃ c, RaisesFault i s c ∧ exec i s = .next (faultedWith c s)) ∨ ∃ u wait, Completes i s u wait := by
    intro u hr ht he hm hf hp hw hx
    by_cases h : touchesBeyondMemory i s
    · exact .inl ⟨.memRange, (hr _).2 ⟨h, rfl⟩, ht _ (touchesBeyondMemory_iff.1 h)⟩
    · have hn := not_touchesBeyondMemory_iff.1 h
      exact plain u (fun c hc => h ((hr c).1 hc).1) (he hn) hm hf hp (hw (State.checkRange_none.1 hn)) hx
  cases i with
  | cls => exact plain _ (fun _ h => h) rfl rfl (by constructor <;> simp [touches]) rfl id ⟨nofun, nofun, nofun⟩
  | ret =>
    by_cases h : 0 < s.sp.val
    · refine .inr ⟨{ s with pc := s.stack[s.sp.val - 1]'(by omega), sp := ⟨s.sp.val - 1, by omega⟩ }, false,
        by simp [RaisesFault]; omega, by simp only [exec, execRet, State.pop_ok h]; rfl, rfl, ?_,
        by simp only [Bool.false_eq_true, reduceCtorEq, exists_const, false_and],
        by simp only [nextPc, dif_pos h], id, nofun, fun _ => ⟨h, rfl⟩⟩
      exact ⟨fun _ _ => rfl, nofun, fun _ => rfl, fun _ _ _ => rfl, nofun, fun _ => rfl, fun _ => rfl, fun _ => rfl,
        fun _ => rfl, fun _ => rfl, fun _ _ => rfl, rfl, rfl, rfl, rfl⟩
    · have h0 : s.sp.val = 0 := by omega
      exact .inl ⟨.stackUnderflow, ⟨h0, rfl⟩, by simp only [exec, execRet, State.pop_empty h0]; rfl⟩
  | jp nnn => exact plain _ (fun _ h => h) rfl rfl (Frame.writePc ..) rfl id ⟨nofun, nofun, nofun⟩
  | call nnn =>
    by_cases h : s.sp.val < 10
    · refine .inr ⟨{ s with stack := s.stack.set s.sp.val s.pc, sp := ⟨s.sp.val + 1, by omega⟩, pc := zext12 nnn },
        false, by simp [RaisesFault]; omega, by simp only [exec, execCall, State.push_ok s.pc h]; rfl, rfl, ?_,
        by simp, rfl, id, fun _ _ => ⟨h, by simp, rfl⟩, nofun⟩
      constructor <;> simp [touches, State.readV]
      intro k hk hne
      exact Vector.getElem_set_ne _ _ (Ne.symm hne)
    · have h0 : s.sp.val = 10 := by omega
      exact .inl ⟨.stackOverflow, ⟨h0, rfl⟩, by simp only [exec, execCall, State.push_full _ h0]; rfl⟩
  | seImm x nn =>
    exact plain _ (fun _ h => h) rfl (State.skipIf_mode ..) (Frame.skipIf ..)
      (by simp [State.skipIf_pc, nextPc]) (by rw [State.skipIf_eq]; exact id) ⟨nofun, nofun, nofun⟩
  | sneImm x nn =>
    exact plain _ (fun _ h => h) rfl (State.skipIf_mode ..) (Frame.skipIf ..)
      (by simp [State.skipIf_pc, nextPc]) (by rw [State.skipIf_eq]; exact id) ⟨nofun, nofun, nofun⟩
  | seReg x y =>
    exact plain _ (fun _ h => h) rfl (State.skipIf_mode ..) (Frame.skipIf ..)
      (by simp [State.skipIf_pc, nextPc]) (by rw [State.skipIf_eq]; exact id) ⟨nofun, nofun, nofun⟩
  | sneReg x y =>
    exact plain _ (fun _ h => h) rfl (State.skipIf_mode ..) (Frame.skipIf ..)
      (by simp [State.skipIf_pc, nextPc]) (by rw [State.skipIf_eq]; exact id) ⟨nofun, nofun, nofun⟩
  | ldImm x nn => exact plain _ (fun _ h => h) rfl rfl (Frame.writeV ..) rfl id ⟨nofun, nofun, nofun⟩
  | addImm x nn => exact plain _ (fun _ h => h) rfl rfl (Frame.writeV ..) rfl id ⟨nofun, nofun, nofun⟩
  | ldReg x y => exact plain _ (fun _ h => h) rfl rfl (Frame.writeV ..) rfl id ⟨nofun, nofun, nofun⟩
  | or x y => exact plain _ (fun _ h => h) rfl rfl (Frame.writeV ..) rfl id ⟨nofun, nofun, nofun⟩
  | and x y => exact plain _ (fun _ h => h) rfl rfl (Frame.writeV ..) rfl id ⟨nofun, nofun, nofun⟩
  | xor x y => exact plain _ (fun _ h => h) rfl rfl (Frame.writeV ..) rfl id ⟨nofun, nofun, nofun⟩
  | addReg x y => exact plain _ (fun _ h => h) rfl rfl (Frame.writeFlagThenResult ..) rfl id ⟨nofun, nofun, nofun⟩
  | sub x y => exact plain _ (fun _ h => h) rfl rfl (Frame.writeFlagThenResult ..) rfl id ⟨nofun, nofun, nofun⟩
  | shr x => exact plain _ (fun _ h => h) rfl rfl (Frame.writeFlagThenResult ..) rfl id ⟨nofun, nofun, nofun⟩
  | subn x y => exact plain _ (fun _ h => h) rfl rfl (Frame.writeFlagThenResult ..) rfl id ⟨nofun, nofun, nofun⟩
  | shl x => exact plain _ (fun _ h => h) rfl rfl (Frame.writeFlagThenResult ..) rfl id ⟨nofun, nofun, nofun⟩
  | ldI nnn => exact plain _ (fun _ h => h) rfl rfl (Frame.writeI ..) rfl id ⟨nofun, nofun, nofun⟩
  | jpV0 nnn => exact plain _ (fun _ h => h) rfl rfl (Frame.writePc ..) rfl id ⟨nofun, nofun, nofun⟩
  | rnd x nn => exact plain _ (fun _ h => h) rfl rfl (Frame.writeV ..) rfl id ⟨nofun, nofun, nofun⟩
  | drw x y n =>
    have hf : ∀ k : Canvas, Frame (touches (.drw x y n) s) s
        ((s.writeFb k.1).writeV Reg.vf (collisionFlag k.2)).countPresent := by
      intro k
      constructor <;> simp [touches]
      intro r hr; rw [State.readV_writeV_ne _ _ hr]; rfl
    exact ranged ((s.writeFb (s.drawn x y n).1).writeV Reg.vf (collisionFlag (s.drawn x y n).2)).countPresent
      (fun c => Iff.rfl) (fun r h => by rw [bytesTouched_drw] at h; simp only [exec, execDrw, h])
      (fun h => by rw [bytesTouched_drw] at h; simp only [exec, execDrw, h]) rfl (hf (s.drawn x y n)) rfl (fun _ => id) ⟨nofun, nofun, nofun⟩
  | skp x =>
    by_cases h : (s.readV x).toNat ≤ 15
    · exact plain (s.skipIf (s.keyDown (s.readV x).toNat)) (by simp [RaisesFault]; omega)
        (by simp only [exec, execSkp, State.keyIndex_ok h]) (State.skipIf_mode ..) (Frame.skipIf ..)
        (by simp [State.skipIf_pc, nextPc]) (by rw [State.skipIf_eq]; exact id) ⟨nofun, nofun, nofun⟩
    · exact .inl ⟨.keyRange, ⟨by omega, rfl⟩, by simp only [exec, execSkp, State.keyIndex_error (Nat.lt_of_not_le h)]; rfl⟩
  | sknp x =>
    by_cases h : (s.readV x).toNat ≤ 15
    · exact plain (s.skipIf (!s.keyDown (s.readV x).toNat)) (by simp [RaisesFault]; omega)
        (by simp only [exec, execSknp, State.keyIndex_ok h]) (State.skipIf_mode ..) (Frame.skipIf ..)
        (by simp [State.skipIf_pc, nextPc]) (by rw [State.skipIf_eq]; exact id) ⟨nofun, nofun, nofun⟩
    · exact .inl ⟨.keyRange, ⟨by omega, rfl⟩, by simp only [exec, execSknp, State.keyIndex_error (Nat.lt_of_not_le h)]; rfl⟩
  | ldVxDT x => exact plain _ (fun _ h => h) rfl rfl (Frame.writeV ..) rfl id ⟨nofun, nofun, nofun⟩
  | ldVxK x =>
    cases h : s.lowestKey with
    | none =>
      have h0 := State.lowestKey_none.1 h
      refine .inr ⟨s.writePc (s.pc - Config.instrLen), true, fun _ h => h, by simp only [exec, execLdVxK, h],
        rfl, ?_, by simpa using h0, (if_pos h0).symm, id, nofun, nofun⟩
      constructor <;> simp [touches]
    | some k =>
      have h0 : s.keys ≠ 0 := fun h0 => by rw [State.lowestKey_none.2 h0] at h; cases h
      refine .inr ⟨s.writeV x (BitVec.ofNat 8 k), false, fun _ h => h, by simp only [exec, execLdVxK, h],
        rfl, ?_, by simpa using h0, (if_neg h0).symm, id, nofun, nofun⟩
      constructor <;> simp [touches]
      exact fun r hr => State.readV_writeV_ne _ _ hr
  | ldDTVx x => exact plain _ (fun _ h => h) rfl rfl (by constructor <;> simp [touches]) rfl id ⟨nofun, nofun, nofun⟩
  | ldSTVx x => exact plain _ (fun _ h => h) rfl rfl (by constructor <;> simp [touches]) rfl id ⟨nofun, nofun, nofun⟩
  | addI x =>
    refine plain _ (fun _ h => h) rfl rfl ?_ rfl id ⟨nofun, nofun, nofun⟩
    constructor <;> simp [touches]
    intro r hr; rw [State.readV_writeV_ne _ _ hr]; rfl
  | ldF x => exact plain _ (fun _ h => h) rfl rfl (Frame.writeI ..) rfl id ⟨nofun, nofun, nofun⟩
  | ldB x =>
    refine ranged (s.writeMem (s.mem.store s.i.toNat (bcdDigits (s.readV x)))) (fun c => Iff.rfl)
      (fun r h => by simp only [bytesTouched] at h; simp only [exec, execLdB, h])
      (fun h => by simp only [bytesTouched] at h; simp only [exec, execLdB, h]) rfl
      (Frame.store s (bcdDigits (s.readV x))) rfl (fun h hw => Memory.store_wf _ hw ?_) ⟨nofun, nofun, nofun⟩
    have := h 2 (by simp [bytesTouched])
    simp [bcdDigits]; omega
  | ldMemVx x =>
    have hf := Frame.store s (s.regRun x)
    rw [State.regRun_length] at hf
    refine ranged (s.writeMem (s.mem.store s.i.toNat (s.regRun x))) (fun c => Iff.rfl)
      (fun r h => by simp only [bytesTouched] at h; simp only [exec, execLdMemVx, h])
      (fun h => by simp only [bytesTouched] at h; simp only [exec, execLdMemVx, h]) rfl hf rfl
      (fun h hw => Memory.store_wf _ hw ?_) ⟨nofun, nofun, nofun⟩
    have := h x.val (by simp [bytesTouched])
    rw [State.regRun_length]; simp; omega
  | ldVxMem x =>
    refine ranged (s.writeRegs (s.loadedRegs x)) (fun c => Iff.rfl)
      (fun r h => by simp only [bytesTouched] at h; simp only [exec, execLdVxMem, h])
      (fun h => by simp only [bytesTouched] at h; simp only [exec, execLdVxMem, h])
      (State.writeRegs_mode ..) ?_ (State.writeRegs_pc ..) (fun _ => by rw [State.writeRegs_mem]; exact id)
      ⟨nofun, nofun, nofun⟩
    constructor <;> simp [touches]
    intro r hr
    have := State.loadedRegs_get s x r
    rwa [if_neg (by simpa using hr)] at this
  | dw w => exact plain _ (fun _ h => h) rfl rfl (Frame.refl ..) rfl id ⟨nofun, nofun, nofun⟩

end Sys2Proof.Machine
end

