-- ==== Sys2Proof/Laws/PerInstr.lean ====
section
/-! SUPPORT. Statements made per instruction, about the instruction as syntax. `EncodedRow`: the word of a well-formed
instruction has the bits its row of the opcode table asks for (30_encoding.md R49, R50); the word of a `DW` has those of
no row. -/

namespace Sys2Proof.Laws.EncodedRow

/-- The encoded word fits the instruction's row, or, for a `DW`, no row. -/
def Statement (i : Instr) : Prop :=
  i.wf = true → match i.row with
    | some r => r.fits (encode i) = true
    | none => matchesNoRow (encode i) = true

/-- A row of the mask 0xF000. -/
theorem fits_family {w : Word} {p m : String} {a : BitVec 4} (h : family w = a) :
    (Row.mk p m (digits a 0 0 0) 0xF000#16).fits w = true := by
  simpa [Row.fits] using (mask_family w a).2 h

/-- A row of the mask 0xF00F. -/
theorem fits_family_n {w : Word} {p m : String} {a d : BitVec 4} (h : family w = a) (hn : fieldN w = d) :
    (Row.mk p m (digits a 0 0 d) 0xF00F#16).fits w = true := by
  simpa [Row.fits] using (mask_family_n w a d).2 ⟨h, hn⟩

/-- A row of the mask 0xF0FF. -/
theorem fits_family_nn {w : Word} {p m : String} (a c d : BitVec 4) (h : family w = a) (hn : fieldNN w = c ++ d) :
    (Row.mk p m (digits a 0 c d) 0xF0FF#16).fits w = true := by
  simpa [Row.fits] using (mask_family_nn w a c d).2 ⟨h, hn⟩

theorem cls : Statement .cls := fun _ => rfl
theorem ret : Statement .ret := fun _ => rfl
theorem jp (nnn : Addr12) : Statement (.jp nnn) := fun _ => fits_family (family_formatNNN _ _)
theorem call (nnn : Addr12) : Statement (.call nnn) := fun _ => fits_family (family_formatNNN _ _)
theorem seImm (x : Reg) (nn : Byte) : Statement (.seImm x nn) := fun _ => fits_family (family_formatXNN _ _ _)
theorem sneImm (x : Reg) (nn : Byte) : Statement (.sneImm x nn) := fun _ => fits_family (family_formatXNN _ _ _)
theorem seReg (x y : Reg) : Statement (.seReg x y) :=
  fun _ => fits_family_n (family_formatXYN _ _ _ _) (fieldN_formatXYN _ _ _ _)
theorem ldImm (x : Reg) (nn : Byte) : Statement (.ldImm x nn) := fun _ => fits_family (family_formatXNN _ _ _)
theorem addImm (x : Reg) (nn : Byte) : Statement (.addImm x nn) := fun _ => fits_family (family_formatXNN _ _ _)
theorem ldReg (x y : Reg) : Statement (.ldReg x y) :=
  fun _ => fits_family_n (family_formatXYN _ _ _ _) (fieldN_formatXYN _ _ _ _)
theorem or (x y : Reg) : Statement (.or x y) :=
  fun _ => fits_family_n (family_formatXYN _ _ _ _) (fieldN_formatXYN _ _ _ _)
theorem and (x y : Reg) : Statement (.and x y) :=
  fun _ => fits_family_n (family_formatXYN _ _ _ _) (fieldN_formatXYN _ _ _ _)
theorem xor (x y : Reg) : Statement (.xor x y) :=
  fun _ => fits_family_n (family_formatXYN _ _ _ _) (fieldN_formatXYN _ _ _ _)
theorem addReg (x y : Reg) : Statement (.addReg x y) :=
  fun _ => fits_family_n (family_formatXYN _ _ _ _) (fieldN_formatXYN _ _ _ _)
theorem sub (x y : Reg) : Statement (.sub x y) :=
  fun _ => fits_family_n (family_formatXYN _ _ _ _) (fieldN_formatXYN _ _ _ _)
theorem shr (x : Reg) : Statement (.shr x) :=
  fun _ => fits_family_n (family_formatXYN _ _ _ _) (fieldN_formatXYN _ _ _ _)
theorem subn (x y : Reg) : Statement (.subn x y) :=
  fun _ => fits_family_n (family_formatXYN _ _ _ _) (fieldN_formatXYN _ _ _ _)
theorem shl (x : Reg) : Statement (.shl x) :=
  fun _ => fits_family_n (family_formatXYN _ _ _ _) (fieldN_formatXYN _ _ _ _)
theorem sneReg (x y : Reg) : Statement (.sneReg x y) :=
  fun _ => fits_family_n (family_formatXYN _ _ _ _) (fieldN_formatXYN _ _ _ _)
theorem ldI (nnn : Addr12) : Statement (.ldI nnn) := fun _ => fits_family (family_formatNNN _ _)
theorem jpV0 (nnn : Addr12) : Statement (.jpV0 nnn) := fun _ => fits_family (family_formatNNN _ _)
theorem rnd (x : Reg) (nn : Byte) : Statement (.rnd x nn) := fun _ => fits_family (family_formatXNN _ _ _)
theorem drw (x y : Reg) (n : BitVec 4) : Statement (.drw x y n) := fun _ => fits_family (family_formatXYN _ _ _ _)
theorem skp (x : Reg) : Statement (.skp x) :=
  fun _ => fits_family_nn 0xE 0x9 0xE (family_formatXNN _ _ _) (fieldNN_formatXNN _ _ _)
theorem sknp (x : Reg) : Statement (.sknp x) :=
  fun _ => fits_family_nn 0xE 0xA 0x1 (family_formatXNN _ _ _) (fieldNN_formatXNN _ _ _)
theorem ldVxDT (x : Reg) : Statement (.ldVxDT x) :=
  fun _ => fits_family_nn 0xF 0x0 0x7 (family_formatXNN _ _ _) (fieldNN_formatXNN _ _ _)
theorem ldVxK (x : Reg) : Statement (.ldVxK x) :=
  fun _ => fits_family_nn 0xF 0x0 0xA (family_formatXNN _ _ _) (fieldNN_formatXNN _ _ _)
theorem ldDTVx (x : Reg) : Statement (.ldDTVx x) :=
  fun _ => fits_family_nn 0xF 0x1 0x5 (family_formatXNN _ _ _) (fieldNN_formatXNN _ _ _)
theorem ldSTVx (x : Reg) : Statement (.ldSTVx x) :=
  fun _ => fits_family_nn 0xF 0x1 0x8 (family_formatXNN _ _ _) (fieldNN_formatXNN _ _ _)
theorem addI (x : Reg) : Statement (.addI x) :=
  fun _ => fits_family_nn 0xF 0x1 0xE (family_formatXNN _ _ _) (fieldNN_formatXNN _ _ _)
theorem ldF (x : Reg) : Statement (.ldF x) :=
  fun _ => fits_family_nn 0xF 0x2 0x9 (family_formatXNN _ _ _) (fieldNN_formatXNN _ _ _)
theorem ldB (x : Reg) : Statement (.ldB x) :=
  fun _ => fits_family_nn 0xF 0x3 0x3 (family_formatXNN _ _ _) (fieldNN_formatXNN _ _ _)
theorem ldMemVx (x : Reg) : Statement (.ldMemVx x) :=
  fun _ => fits_family_nn 0xF 0x5 0x5 (family_formatXNN _ _ _) (fieldNN_formatXNN _ _ _)
theorem ldVxMem (x : Reg) : Statement (.ldVxMem x) :=
  fun _ => fits_family_nn 0xF 0x6 0x5 (family_formatXNN _ _ _) (fieldNN_formatXNN _ _ _)
theorem dw (w : Word) : Statement (.dw w) := fun h => h

end Sys2Proof.Laws.EncodedRow
end

