-- ==== Sys2Proof/Laws/Rows.lean ====
section
/-! SUPPORT. The 34 rows of the opcode table as conditions on a word's fields: `w &&& mask = match` row by row
(30_encoding.md R49, R50), and the case splits over a family and over `n` that decoding asks for. -/

namespace Sys2Proof

/-- A word is its family and its low twelve bits. -/
theorem word_eq_iff (w v : Word) : w = v ↔ family w = family v ∧ fieldNNN w = fieldNNN v := by
  constructor
  · rintro rfl; exact ⟨rfl, rfl⟩
  · rintro ⟨h1, h2⟩
    apply BitVec.eq_of_toNat_eq
    have a := congrArg BitVec.toNat h1
    have b := congrArg BitVec.toNat h2
    simp only [family, fieldNNN, BitVec.extractLsb'_toNat, Nat.shiftRight_eq_div_pow] at a b
    have := w.isLt
    have := v.isLt
    omega

/-- The mask 0xFFFF asks for the whole word. -/
theorem and_full (w : Word) : w &&& 0xFFFF#16 = w := by simpa using BitVec.and_allOnes (x := w)

/-! ### The rows, in the table's order -/

theorem masked_00E0 (w : Word) : w &&& 0xFFFF#16 = 0x00E0#16 ↔ family w = 0x0#4 ∧ fieldNNN w = 0x0E0#12 := by
  rw [and_full]; exact word_eq_iff w 0x00E0#16
theorem masked_00EE (w : Word) : w &&& 0xFFFF#16 = 0x00EE#16 ↔ family w = 0x0#4 ∧ fieldNNN w = 0x0EE#12 := by
  rw [and_full]; exact word_eq_iff w 0x00EE#16
theorem masked_1000 (w : Word) : w &&& 0xF000#16 = 0x1000#16 ↔ family w = 0x1#4 := mask_family w 0x1
theorem masked_2000 (w : Word) : w &&& 0xF000#16 = 0x2000#16 ↔ family w = 0x2#4 := mask_family w 0x2
theorem masked_3000 (w : Word) : w &&& 0xF000#16 = 0x3000#16 ↔ family w = 0x3#4 := mask_family w 0x3
theorem masked_4000 (w : Word) : w &&& 0xF000#16 = 0x4000#16 ↔ family w = 0x4#4 := mask_family w 0x4
theorem masked_5000 (w : Word) : w &&& 0xF00F#16 = 0x5000#16 ↔ family w = 0x5#4 ∧ fieldN w = 0x0#4 :=
  mask_family_n w 0x5 0x0
theorem masked_6000 (w : Word) : w &&& 0xF000#16 = 0x6000#16 ↔ family w = 0x6#4 := mask_family w 0x6
theorem masked_7000 (w : Word) : w &&& 0xF000#16 = 0x7000#16 ↔ family w = 0x7#4 := mask_family w 0x7
theorem masked_8000 (w : Word) : w &&& 0xF00F#16 = 0x8000#16 ↔ family w = 0x8#4 ∧ fieldN w = 0x0#4 :=
  mask_family_n w 0x8 0x0
theorem masked_8001 (w : Word) : w &&& 0xF00F#16 = 0x8001#16 ↔ family w = 0x8#4 ∧ fieldN w = 0x1#4 :=
  mask_family_n w 0x8 0x1
theorem masked_8002 (w : Word) : w &&& 0xF00F#16 = 0x8002#16 ↔ family w = 0x8#4 ∧ fieldN w = 0x2#4 :=
  mask_family_n w 0x8 0x2
theorem masked_8003 (w : Word) : w &&& 0xF00F#16 = 0x8003#16 ↔ family w = 0x8#4 ∧ fieldN w = 0x3#4 :=
  mask_family_n w 0x8 0x3
theorem masked_8004 (w : Word) : w &&& 0xF00F#16 = 0x8004#16 ↔ family w = 0x8#4 ∧ fieldN w = 0x4#4 :=
  mask_family_n w 0x8 0x4
theorem masked_8005 (w : Word) : w &&& 0xF00F#16 = 0x8005#16 ↔ family w = 0x8#4 ∧ fieldN w = 0x5#4 :=
  mask_family_n w 0x8 0x5
theorem masked_8006 (w : Word) : w &&& 0xF00F#16 = 0x8006#16 ↔ family w = 0x8#4 ∧ fieldN w = 0x6#4 :=
  mask_family_n w 0x8 0x6
theorem masked_8007 (w : Word) : w &&& 0xF00F#16 = 0x8007#16 ↔ family w = 0x8#4 ∧ fieldN w = 0x7#4 :=
  mask_family_n w 0x8 0x7
theorem masked_800E (w : Word) : w &&& 0xF00F#16 = 0x800E#16 ↔ family w = 0x8#4 ∧ fieldN w = 0xE#4 :=
  mask_family_n w 0x8 0xE
theorem masked_9000 (w : Word) : w &&& 0xF00F#16 = 0x9000#16 ↔ family w = 0x9#4 ∧ fieldN w = 0x0#4 :=
  mask_family_n w 0x9 0x0
theorem masked_A000 (w : Word) : w &&& 0xF000#16 = 0xA000#16 ↔ family w = 0xA#4 := mask_family w 0xA
theorem masked_B000 (w : Word) : w &&& 0xF000#16 = 0xB000#16 ↔ family w = 0xB#4 := mask_family w 0xB
theorem masked_C000 (w : Word) : w &&& 0xF000#16 = 0xC000#16 ↔ family w = 0xC#4 := mask_family w 0xC
theorem masked_D000 (w : Word) : w &&& 0xF000#16 = 0xD000#16 ↔ family w = 0xD#4 := mask_family w 0xD
theorem masked_E09E (w : Word) : w &&& 0xF0FF#16 = 0xE09E#16 ↔ family w = 0xE#4 ∧ fieldNN w = 0x9E#8 :=
  mask_family_nn w 0xE 0x9 0xE
theorem masked_E0A1 (w : Word) : w &&& 0xF0FF#16 = 0xE0A1#16 ↔ family w = 0xE#4 ∧ fieldNN w = 0xA1#8 :=
  mask_family_nn w 0xE 0xA 0x1
theorem masked_F007 (w : Word) : w &&& 0xF0FF#16 = 0xF007#16 ↔ family w = 0xF#4 ∧ fieldNN w = 0x07#8 :=
  mask_family_nn w 0xF 0x0 0x7
theorem masked_F00A (w : Word) : w &&& 0xF0FF#16 = 0xF00A#16 ↔ family w = 0xF#4 ∧ fieldNN w = 0x0A#8 :=
  mask_family_nn w 0xF 0x0 0xA
theorem masked_F015 (w : Word) : w &&& 0xF0FF#16 = 0xF015#16 ↔ family w = 0xF#4 ∧ fieldNN w = 0x15#8 :=
  mask_family_nn w 0xF 0x1 0x5
theorem masked_F018 (w : Word) : w &&& 0xF0FF#16 = 0xF018#16 ↔ family w = 0xF#4 ∧ fieldNN w = 0x18#8 :=
  mask_family_nn w 0xF 0x1 0x8
theorem masked_F01E (w : Word) : w &&& 0xF0FF#16 = 0xF01E#16 ↔ family w = 0xF#4 ∧ fieldNN w = 0x1E#8 :=
  mask_family_nn w 0xF 0x1 0xE
theorem masked_F029 (w : Word) : w &&& 0xF0FF#16 = 0xF029#16 ↔ family w = 0xF#4 ∧ fieldNN w = 0x29#8 :=
  mask_family_nn w 0xF 0x2 0x9
theorem masked_F033 (w : Word) : w &&& 0xF0FF#16 = 0xF033#16 ↔ family w = 0xF#4 ∧ fieldNN w = 0x33#8 :=
  mask_family_nn w 0xF 0x3 0x3
theorem masked_F055 (w : Word) : w &&& 0xF0FF#16 = 0xF055#16 ↔ family w = 0xF#4 ∧ fieldNN w = 0x55#8 :=
  mask_family_nn w 0xF 0x5 0x5
theorem masked_F065 (w : Word) : w &&& 0xF0FF#16 = 0xF065#16 ↔ family w = 0xF#4 ∧ fieldNN w = 0x65#8 :=
  mask_family_nn w 0xF 0x6 0x5

/-- A property of every row of the table, row by row. -/
theorem forall_row_iff (P : Row → Prop) :
    (∀ r ∈ opcodeTable, P r) ↔ P ⟨"00E0", "CLS", 0x00E0#16, 0xFFFF#16⟩ ∧ P ⟨"00EE", "RET", 0x00EE#16, 0xFFFF#16⟩ ∧
      P ⟨"1nnn", "JP", 0x1000#16, 0xF000#16⟩ ∧ P ⟨"2nnn", "CALL", 0x2000#16, 0xF000#16⟩ ∧
      P ⟨"3xnn", "SE", 0x3000#16, 0xF000#16⟩ ∧ P ⟨"4xnn", "SNE", 0x4000#16, 0xF000#16⟩ ∧
      P ⟨"5xy0", "SE", 0x5000#16, 0xF00F#16⟩ ∧ P ⟨"6xnn", "LD", 0x6000#16, 0xF000#16⟩ ∧
      P ⟨"7xnn", "ADD", 0x7000#16, 0xF000#16⟩ ∧ P ⟨"8xy0", "LD", 0x8000#16, 0xF00F#16⟩ ∧
      P ⟨"8xy1", "OR", 0x8001#16, 0xF00F#16⟩ ∧ P ⟨"8xy2", "AND", 0x8002#16, 0xF00F#16⟩ ∧
      P ⟨"8xy3", "XOR", 0x8003#16, 0xF00F#16⟩ ∧ P ⟨"8xy4", "ADD", 0x8004#16, 0xF00F#16⟩ ∧
      P ⟨"8xy5", "SUB", 0x8005#16, 0xF00F#16⟩ ∧ P ⟨"8xy6", "SHR", 0x8006#16, 0xF00F#16⟩ ∧
      P ⟨"8xy7", "SUBN", 0x8007#16, 0xF00F#16⟩ ∧ P ⟨"8xyE", "SHL", 0x800E#16, 0xF00F#16⟩ ∧
      P ⟨"9xy0", "SNE", 0x9000#16, 0xF00F#16⟩ ∧ P ⟨"Annn", "LD", 0xA000#16, 0xF000#16⟩ ∧
      P ⟨"Bnnn", "JP", 0xB000#16, 0xF000#16⟩ ∧ P ⟨"Cxnn", "RND", 0xC000#16, 0xF000#16⟩ ∧
      P ⟨"Dxyn", "DRW", 0xD000#16, 0xF000#16⟩ ∧ P ⟨"Ex9E", "SKP", 0xE09E#16, 0xF0FF#16⟩ ∧
      P ⟨"ExA1", "SKNP", 0xE0A1#16, 0xF0FF#16⟩ ∧ P ⟨"Fx07", "LD", 0xF007#16, 0xF0FF#16⟩ ∧
      P ⟨"Fx0A", "LD", 0xF00A#16, 0xF0FF#16⟩ ∧ P ⟨"Fx15", "LD", 0xF015#16, 0xF0FF#16⟩ ∧
      P ⟨"Fx18", "LD", 0xF018#16, 0xF0FF#16⟩ ∧ P ⟨"Fx1E", "ADD", 0xF01E#16, 0xF0FF#16⟩ ∧
      P ⟨"Fx29", "LD", 0xF029#16, 0xF0FF#16⟩ ∧ P ⟨"Fx33", "LD", 0xF033#16, 0xF0FF#16⟩ ∧
      P ⟨"Fx55", "LD", 0xF055#16, 0xF0FF#16⟩ ∧ P ⟨"Fx65", "LD", 0xF065#16, 0xF0FF#16⟩ := by
  simp [opcodeTable, rows1To7, rows8To18, rows19To25, rows26To34]


/-- The sixteen families. -/
theorem family_cases (w : Word) :
    family w = 0x0#4 ∨ family w = 0x1#4 ∨ family w = 0x2#4 ∨ family w = 0x3#4 ∨ family w = 0x4#4 ∨
      family w = 0x5#4 ∨ family w = 0x6#4 ∨ family w = 0x7#4 ∨ family w = 0x8#4 ∨ family w = 0x9#4 ∨
      family w = 0xA#4 ∨ family w = 0xB#4 ∨ family w = 0xC#4 ∨ family w = 0xD#4 ∨ family w = 0xE#4 ∨
      family w = 0xF#4 := by
  generalize family w = f
  revert f; decide

/-- The sixteen values of `n`. -/
theorem fieldN_cases (w : Word) :
    fieldN w = 0x0#4 ∨ fieldN w = 0x1#4 ∨ fieldN w = 0x2#4 ∨ fieldN w = 0x3#4 ∨ fieldN w = 0x4#4 ∨
      fieldN w = 0x5#4 ∨ fieldN w = 0x6#4 ∨ fieldN w = 0x7#4 ∨ fieldN w = 0x8#4 ∨ fieldN w = 0x9#4 ∨
      fieldN w = 0xA#4 ∨ fieldN w = 0xB#4 ∨ fieldN w = 0xC#4 ∨ fieldN w = 0xD#4 ∨ fieldN w = 0xE#4 ∨
      fieldN w = 0xF#4 := by
  generalize fieldN w = f
  revert f; decide

end Sys2Proof
end

