-- ==== Sys2Proof/Tests/Slice0.lean ====
section
/-! SUPPORT. The model's own tests. Words are written out bit by bit from the encodings of 30_encoding.md R50; the
expected results of the one-step tests are the vectors of 95_test_vectors.md, named in each comment. Then a witness for
every obligation that has hypotheses, clause by clause at the boundary values. -/

namespace Sys2Proof.Tests

open Sys2Proof.Machine

/-! ### Well-formedness: a DW word that is another row's is refused, family by family -/

theorem test_wf_dw_cls : (Instr.dw 0x00E0#16).wf = false := by decide
theorem test_wf_dw_jp : (Instr.dw 0x1ABC#16).wf = false := by decide
theorem test_wf_dw_seReg : (Instr.dw 0x5120#16).wf = false := by decide
theorem test_wf_dw_shr : (Instr.dw 0x8126#16).wf = false := by decide
theorem test_wf_dw_skp : (Instr.dw 0xE19E#16).wf = false := by decide
theorem test_wf_dw_ldVxMem : (Instr.dw 0xF265#16).wf = false := by decide
theorem test_wf_dw_noRow : (Instr.dw 0x5121#16).wf = true ∧ (Instr.dw 0x0000#16).wf = true := by decide

/-! ### Decoding, one word per constructor (R50, formats of R46) -/

theorem test_decode_cls : decodeWord 0b0000000011100000#16 = .cls := by decide
theorem test_decode_ret : decodeWord 0b0000000011101110#16 = .ret := by decide
theorem test_decode_jp : decodeWord 0b0001101010111100#16 = .jp 0xABC#12 := by decide
theorem test_decode_call : decodeWord 0b0010001000010000#16 = .call 0x210#12 := by decide
theorem test_decode_seImm : decodeWord 0b0011001100101010#16 = .seImm 3 0x2A#8 := by decide
theorem test_decode_sneImm : decodeWord 0b0100001100101010#16 = .sneImm 3 0x2A#8 := by decide
theorem test_decode_seReg : decodeWord 0b0101000100100000#16 = .seReg 1 2 := by decide
theorem test_decode_ldImm : decodeWord 0b0110101000000101#16 = .ldImm 10 0x05#8 := by decide
theorem test_decode_addImm : decodeWord 0b0111001000100000#16 = .addImm 2 0x20#8 := by decide
theorem test_decode_ldReg : decodeWord 0b1000000000010000#16 = .ldReg 0 1 := by decide
theorem test_decode_or : decodeWord 0b1000000100100001#16 = .or 1 2 := by decide
theorem test_decode_and : decodeWord 0b1000000100100010#16 = .and 1 2 := by decide
theorem test_decode_xor : decodeWord 0b1000000100100011#16 = .xor 1 2 := by decide
theorem test_decode_addReg : decodeWord 0b1000000100100100#16 = .addReg 1 2 := by decide
theorem test_decode_sub : decodeWord 0b1000000100100101#16 = .sub 1 2 := by decide
theorem test_decode_shr : decodeWord 0b1000000100100110#16 = .shr 1 := by decide
theorem test_decode_subn : decodeWord 0b1000000100100111#16 = .subn 1 2 := by decide
theorem test_decode_shl : decodeWord 0b1000000100101110#16 = .shl 1 := by decide
theorem test_decode_sneReg : decodeWord 0b1001000100100000#16 = .sneReg 1 2 := by decide
theorem test_decode_ldI : decodeWord 0b1010001100000000#16 = .ldI 0x300#12 := by decide
theorem test_decode_jpV0 : decodeWord 0b1011111111111111#16 = .jpV0 0xFFF#12 := by decide
theorem test_decode_rnd : decodeWord 0b1100001000001111#16 = .rnd 2 0x0F#8 := by decide
theorem test_decode_drw : decodeWord 0b1101000100100101#16 = .drw 1 2 5#4 := by decide
theorem test_decode_skp : decodeWord 0b1110000110011110#16 = .skp 1 := by decide
theorem test_decode_sknp : decodeWord 0b1110000110100001#16 = .sknp 1 := by decide
theorem test_decode_ldVxDT : decodeWord 0b1111001000000111#16 = .ldVxDT 2 := by decide
theorem test_decode_ldVxK : decodeWord 0b1111001100001010#16 = .ldVxK 3 := by decide
theorem test_decode_ldDTVx : decodeWord 0b1111001000010101#16 = .ldDTVx 2 := by decide
theorem test_decode_ldSTVx : decodeWord 0b1111001000011000#16 = .ldSTVx 2 := by decide
theorem test_decode_addI : decodeWord 0b1111000100011110#16 = .addI 1 := by decide
theorem test_decode_ldF : decodeWord 0b1111001100101001#16 = .ldF 3 := by decide
theorem test_decode_ldB : decodeWord 0b1111000000110011#16 = .ldB 0 := by decide
theorem test_decode_ldMemVx : decodeWord 0b1111001001010101#16 = .ldMemVx 2 := by decide
theorem test_decode_ldVxMem : decodeWord 0b1111001001100101#16 = .ldVxMem 2 := by decide
theorem test_decode_dw : decodeWord 0b1000000100101000#16 = .dw 0x8128#16 := by decide

/-- The table's word comes in with bit 0 least significant, and memory holds its high byte first (R30). -/
theorem test_decodeTableWord : decodeTableWord 16 0x6A05 = some (.ldImm 10 0x05#8) := by decide

/-- One byte is no instruction (R45). -/
theorem test_decode_truncated : decode [0x6A#8] = .error .truncated := rfl

/-- Lines of the programs P2 and P3. -/
theorem test_text : (decodeWord 0xF265#16).text = "LD V2, [I]" ∧ (decodeWord 0x60FE#16).text = "LD V0, 0xFE" ∧
    (decodeWord 0x0000#16).text = "DW 0x0000" ∧ (decodeWord 0xBFFF#16).text = "JP V0, 0xFFF" := by decide

/-! ### One `cpu_tick` from a small state -/

/-- The state after the word `w` placed where `s` fetches next is executed by one `cpu_tick`. -/
def tick (w : Nat) (s : State) (keys : KeyLevels := 0) (rnd : Byte := 0) : State :=
  match step { s.withFetchWord 16 w with events := [.cpuTick keys rnd] } with
  | .next t => t
  | .fault _ => s
  | .refused _ => s

/-- The reset state with two registers written. -/
def regs (x : Reg) (a : Byte) (y : Reg) (b : Byte) : State := (State.reset.writeV x a).writeV y b

/-- The reset state with one register and `I` written. -/
def regI (x : Reg) (a : Byte) (i : Word) : State := (State.reset.writeV x a).writeI i

/-- T1 and T2. -/
theorem test_jp : (tick 0x1ABC .reset).pc = 0x0ABC#16 ∧ (tick 0x1200 .reset).pc = 0x0200#16 := by decide
/-- T3. -/
theorem test_call : (tick 0x2210 (State.reset.writePc 0x204#16)).pc = 0x0210#16 ∧
    (tick 0x2210 (State.reset.writePc 0x204#16)).sp = 1 ∧
    (tick 0x2210 (State.reset.writePc 0x204#16)).stack[0] = 0x0206#16 := by decide
/-- T6: a return to 0x1000 halts. -/
theorem test_ret_halts :
    (tick 0x00EE { State.reset with sp := 1, stack := State.reset.stack.set 0 0x1000#16 }).mode = .halted := by decide
/-- T8: an underflow leaves `PC` as the fetch left it. -/
theorem test_ret_underflow : (tick 0x00EE .reset).faultCause = .stackUnderflow ∧ (tick 0x00EE .reset).mode = .faulted ∧
    (tick 0x00EE .reset).pc = 0x0202#16 := by decide
/-- T9 and T10. -/
theorem test_jpV0 : (tick 0xB300 (State.reset.writeV 0 0x04)).pc = 0x0304#16 ∧
    (tick 0xBFFF (State.reset.writeV 0 0xFF)).pc = 0x10FE#16 := by decide
/-- T14 and T15. -/
theorem test_seImm : (tick 0x332A (State.reset.writeV 3 0x2A)).pc = 0x0204#16 ∧
    (tick 0x332A (State.reset.writeV 3 0x2B)).pc = 0x0202#16 := by decide
/-- T16 and T17. -/
theorem test_sneImm : (tick 0x432A (State.reset.writeV 3 0x2A)).pc = 0x0202#16 ∧
    (tick 0x432A .reset).pc = 0x0204#16 := by decide
/-- T18 and T19. -/
theorem test_seReg : (tick 0x5120 (regs 1 7 2 7)).pc = 0x0204#16 ∧ (tick 0x5120 (regs 1 7 2 8)).pc = 0x0202#16 := by
  decide
/-- T21 and T22. -/
theorem test_sneReg : (tick 0x9120 (regs 1 7 2 8)).pc = 0x0204#16 ∧ (tick 0x9120 (regs 1 7 2 7)).pc = 0x0202#16 := by
  decide
/-- T13. -/
theorem test_fetchRange : step ((State.reset.writePc 0xFFF#16)) =
    .next (faultedWith .fetchRange { State.reset with pc := 0xFFF#16, draws := 1 }) := rfl
/-- T25: a no-operation in the last slot halts. -/
theorem test_dw_halts : (tick 0x0000 (State.reset.writePc 0xFFE#16)).mode = .halted := by decide
/-- T33: `00E1` is not `00E0`. -/
theorem test_dw_keepsPixel :
    (tick 0x00E1 (State.reset.writeFb (Framebuffer.blank.toggle 0 0))).fb.pixel 0 0 = true := by decide
/-- A2: `VF` is an ordinary destination. -/
theorem test_ldImm : (tick 0x6FFF .reset).readV 15 = 0xFF#8 := by decide
/-- A4: the sum wraps and `VF` keeps 7. -/
theorem test_addImm : (tick 0x7201 (regs 2 0xFF 15 7)).readV 2 = 0x00#8 ∧
    (tick 0x7201 (regs 2 0xFF 15 7)).readV 15 = 0x07#8 := by decide
/-- A6. -/
theorem test_ldReg : (tick 0x8010 (State.reset.writeV 1 0x33)).readV 0 = 0x33#8 := by decide
/-- A8 to A10 without the `VF` column, which `test_logic_keepsVF` tests. -/
theorem test_logic : (tick 0x8121 (regs 1 0xF0 2 0x0F)).readV 1 = 0xFF#8 ∧
    (tick 0x8122 (regs 1 0xF3 2 0x3C)).readV 1 = 0x30#8 ∧ (tick 0x8123 (regs 1 0xFF 2 0x0F)).readV 1 = 0xF0#8 := by
  decide
/-- A8: `VF` keeps 5. -/
theorem test_logic_keepsVF : (tick 0x8121 (regs 1 0xF0 15 5)).readV 15 = 0x05#8 := by decide
/-- A12. -/
theorem test_addReg : (tick 0x8124 (regs 1 0xC8 2 0x64)).readV 1 = 0x2C#8 ∧
    (tick 0x8124 (regs 1 0xC8 2 0x64)).readV 15 = 0x01#8 := by decide
/-- A17 and A18: `VF` as destination, `VF` as operand. -/
theorem test_addReg_VF : (tick 0x8F14 (regs 15 0xF0 1 0x20)).readV 15 = 0x10#8 ∧
    (tick 0x81F4 (regs 1 0xFE 15 0x03)).readV 1 = 0x01#8 := by decide
/-- A20 and A22. -/
theorem test_sub : (tick 0x8125 (regs 1 5 2 10)).readV 1 = 0xFB#8 ∧ (tick 0x8125 (regs 1 5 2 10)).readV 15 = 0x00#8 ∧
    (tick 0x8125 (regs 1 7 2 7)).readV 15 = 0x01#8 := by decide
/-- A24: `x = F`. -/
theorem test_sub_VF : (tick 0x8F15 (regs 15 5 1 10)).readV 15 = 0xFB#8 := by decide
/-- A32: `y` is ignored. -/
theorem test_shr : (tick 0x8126 (regs 1 5 2 0xFF)).readV 1 = 0x02#8 ∧
    (tick 0x8126 (regs 1 5 2 0xFF)).readV 15 = 0x01#8 := by decide
/-- A34: `x = F`. -/
theorem test_shr_VF : (tick 0x8F06 (State.reset.writeV 15 5)).readV 15 = 0x02#8 := by decide
/-- A26 and A27. -/
theorem test_subn : (tick 0x8127 (regs 1 5 2 10)).readV 15 = 0x01#8 ∧ (tick 0x8127 (regs 1 10 2 5)).readV 1 = 0xFB#8 := by
  decide
/-- A35: the flag is of the value before the shift. -/
theorem test_shl : (tick 0x810E (State.reset.writeV 1 0x81)).readV 1 = 0x02#8 ∧
    (tick 0x810E (State.reset.writeV 1 0x81)).readV 15 = 0x01#8 := by decide
/-- A39. -/
theorem test_rnd : (tick 0xC20F .reset 0 0xB7).readV 2 = 0x07#8 := by decide
/-- M2: the whole of `I` is replaced. -/
theorem test_ldI : (tick 0xAFFF (State.reset.writeI 0xF000#16)).i = 0x0FFF#16 := by decide
/-- M6 and M7: not masked to 12 bits; the flag is of the wrapped sum. -/
theorem test_addI : (tick 0xF11E (regI 1 1 0x0FFF#16)).readV 15 = 0x01#8 ∧
    (tick 0xF11E (regI 1 1 0xFFFF#16)).i = 0x0000#16 ∧ (tick 0xF11E (regI 1 1 0xFFFF#16)).readV 15 = 0x00#8 := by decide
/-- M8: `x = F` adds the old `VF`. -/
theorem test_addI_VF : (tick 0xFF1E (regI 15 5 0x0100#16)).i = 0x0105#16 := by decide
/-- M9. -/
theorem test_ldF : (tick 0xF329 (State.reset.writeV 3 0x1A)).i = 0x0082#16 := by decide
/-- M14: the last legal `I`. -/
theorem test_ldB : (tick 0xF033 (regI 0 0xFF 0x0FFD#16)).mem.read 0xFFD = 2#8 ∧
    (tick 0xF033 (regI 0 0xFF 0x0FFD#16)).mem.read 0xFFF = 5#8 := by decide
/-- M15: nothing is written, not even the byte in range. -/
theorem test_ldB_fault : (tick 0xF033 (regI 0 0xFF 0x0FFE#16)).faultCause = .memRange ∧
    (tick 0xF033 (regI 0 0xFF 0x0FFE#16)).mem.read 0xFFE = 0#8 := by decide
/-- M17, with two registers. -/
theorem test_ldMemVx : (tick 0xF155 ((regs 0 0x11 1 0x22).writeI 0x400#16)).mem.read 0x401 = 0x22#8 ∧
    (tick 0xF155 ((regs 0 0x11 1 0x22).writeI 0x400#16)).i = 0x0400#16 := by decide
/-- M19. -/
theorem test_ldMemVx_fault : (tick 0xF155 (regI 0 0xAB 0x0FFF#16)).mode = .faulted ∧
    (tick 0xF155 (regI 0 0xAB 0x0FFF#16)).mem.read 0xFFF = 0#8 := by decide
/-- M21. -/
theorem test_ldVxMem : (tick 0xF265 ((regI 3 0x77 0x300#16).place 0x300 [2#8, 5#8, 4#8, 9#8])).readV 2 = 4#8 ∧
    (tick 0xF265 ((regI 3 0x77 0x300#16).place 0x300 [2#8, 5#8, 4#8, 9#8])).readV 3 = 0x77#8 := by decide
/-- M23. -/
theorem test_ldVxMem_fault : (tick 0xF065 (State.reset.writeI 0x1000#16)).faultCause = .memRange := by decide
/-- D11: `VF` is untouched. -/
theorem test_cls : (tick 0x00E0 ((State.reset.writeV 15 1).writeFb (Framebuffer.blank.toggle 31 63))).fb.pixel 31 63
      = false ∧ (tick 0x00E0 (State.reset.writeV 15 1)).readV 15 = 1#8 := by decide
/-- D3: clipped at the right edge, nothing on column 0. -/
theorem test_drw_clips :
    (tick 0xD121 (((regs 1 0x3C 2 0x1F).writeI 0x300#16).place 0x300 [0xFF#8])).fb.pixel 31 63 = true ∧
    (tick 0xD121 (((regs 1 0x3C 2 0x1F).writeI 0x300#16).place 0x300 [0xFF#8])).fb.pixel 31 0 = false := by decide
/-- D2, one row: a lit pixel under a set bit goes off and `VF` becomes 1. -/
theorem test_drw_collides :
    (tick 0xD001 ((State.reset.writeI 0x200#16).writeFb (Framebuffer.blank.toggle 0 0))).readV 15 = 1#8 ∧
    (tick 0xD001 ((State.reset.writeI 0x200#16).writeFb (Framebuffer.blank.toggle 0 0))).fb.pixel 0 0 = false := by decide
/-- K1 to K3. -/
theorem test_timer_moves : (tick 0xF207 (State.reset.writeDT 0x3C)).readV 2 = 0x3C#8 ∧
    (tick 0xF215 (State.reset.writeV 2 0x3C)).dt = 0x3C#8 ∧ (tick 0xF218 (State.reset.writeV 2 5)).st = 0x05#8 := by decide
/-- K5 and K6. -/
theorem test_skp : (tick 0xE19E (State.reset.writeV 1 7) 0x0080#16).pc = 0x0204#16 ∧
    (tick 0xE19E (State.reset.writeV 1 7) 0xFF7F#16).pc = 0x0202#16 := by decide
/-- K10. -/
theorem test_skp_fault : (tick 0xE19E (State.reset.writeV 1 0x10) 0xFFFF#16).faultCause = .keyRange := by decide
/-- K7 and K8. -/
theorem test_sknp : (tick 0xE1A1 (State.reset.writeV 1 7) 0x0080#16).pc = 0x0202#16 ∧
    (tick 0xE1A1 (State.reset.writeV 1 7) 0#16).pc = 0x0204#16 := by decide
/-- K12 and K17: the wait rewinds `PC`, before the halt test. -/
theorem test_ldVxK_waits : (tick 0xF30A .reset).mode = .keyWait ∧ (tick 0xF30A .reset).pc = 0x0200#16 ∧
    (tick 0xF30A (State.reset.writePc 0xFFE#16)).mode = .keyWait := by decide
/-- K13: the lowest of keys 7 and 8. -/
theorem test_ldVxK_takes : (tick 0xF30A .reset 0x0180#16).readV 3 = 7#8 := by decide
/-- E1, the last two ticks. -/
theorem test_timerTick : (timerTick (State.reset.writeDT 1)).dt = 0#8 ∧ (timerTick State.reset).dt = 0#8 := by decide
/-- E6. -/
theorem test_resetEvent : (resetBlock (tick 0x00EE .reset)).mode = .running ∧
    (resetBlock (tick 0x00EE .reset)).mem.read 0x201 = 0xEE#8 := by decide
/-- T4: the eleventh nested call. -/
theorem test_call_overflow : (tick 0x2210 { State.reset with sp := 10 }).faultCause = .stackOverflow ∧
    (tick 0x2210 { State.reset with sp := 10 }).pc = 0x0202#16 := by decide

/-! ### Witnesses: a state and operands that meet the hypotheses of each obligation, each clause at a boundary -/

/-- Reset with the next event given. -/
def withEvents (s : State) (es : List Event) : State := { s with events := es }

/-- A state with the depth of the call stack given. -/
def depth (n : Fin 11) : State := { State.reset with sp := n }

/-- A machine that has halted. -/
def halted : State := { State.reset with mode := .halted, pc := 0x1000#16 }

/-- A machine about to execute `F30A` at 0xFFE. -/
def atKeyWait : State := (State.reset.writePc 0xFFE#16).place 0xFFE [0xF3#8, 0x0A#8]

theorem halted_inv : halted.Inv :=
  ⟨⟨.nil, fun _ h => nomatch h⟩, nofun, fun _ => by decide, nofun, by decide, fun _ _ h => absurd h (Nat.not_lt_zero _),
    nofun⟩

theorem atKeyWait_wf : atKeyWait.mem.wf := Memory.store_wf _ Memory.reset_wf (by decide)

theorem atKeyWait_inv : atKeyWait.Inv :=
  ⟨atKeyWait_wf, fun _ => by decide, nofun, nofun, by decide, fun _ _ h => absurd h (Nat.not_lt_zero _), nofun⟩

theorem witness_EncodeDecodeRoundTrip : (Instr.dw 0x5121#16).wf = true ∧ (Instr.drw 15 0 15#4).wf = true := by decide

theorem witness_DecoderIsMatchAndMask :
    ∃ r ∈ opcodeTable, (0x8FF6#16 &&& r.mask = r.value ∧ r.pattern = "8xy6") := by decide

theorem witness_FetchIsBigEndian : (State.reset.writePc 0xFFE#16).pc.toNat + 1 ≤ 0xFFF := by decide

theorem witness_StepRunsDecodedInstruction_listed :
    let s := withEvents atKeyWait [.cpuTick 0x0002#16 7#8]
    s.mode.stopped = false ∧ s.pc.toNat + 1 ≤ 0xFFF ∧
      decode [s.mem.read s.pc.toNat, s.mem.read (s.pc.toNat + 1)] = .ok (.ldVxK 3, []) ∧
      s.events = .cpuTick 0x0002#16 7#8 :: [] := ⟨rfl, by decide, rfl, rfl⟩

theorem witness_StepRunsDecodedInstruction_noEvent :
    atKeyWait.mode.stopped = false ∧ atKeyWait.pc.toNat + 1 ≤ 0xFFF ∧
      decode [atKeyWait.mem.read atKeyWait.pc.toNat, atKeyWait.mem.read (atKeyWait.pc.toNat + 1)] = .ok (.ldVxK 3, []) ∧
      atKeyWait.events = [] := ⟨rfl, by decide, rfl, rfl⟩

theorem witness_FetchRangeFaultAtTopOfMemory :
    let s := withEvents (State.reset.writePc 0xFFF#16) [.cpuTick 0 0]
    s.mode.stopped = false ∧ 0xFFF < s.pc.toNat + 1 ∧ s.events = .cpuTick 0 0 :: [] := ⟨rfl, by decide, rfl⟩

theorem witness_ResetEventRestoresBlock : (withEvents halted [.reset]).events = .reset :: [] := rfl

/-- A running machine that enters the key wait, and a halted one. -/
theorem witness_StepKeepsGoodState :
    (∃ t, atKeyWait.Inv ∧ step atKeyWait = .next t ∧ t.mode = .keyWait) ∧ ∃ t, halted.Inv ∧ step halted = .next t :=
  ⟨⟨_, atKeyWait_inv, rfl, rfl⟩, ⟨_, halted_inv, rfl⟩⟩

theorem witness_PcStaysBoundedOnRuns : ∃ t, atKeyWait.Inv ∧ core.run 2 atKeyWait = .next t := ⟨_, atKeyWait_inv, rfl⟩

theorem witness_StoppedMachineIgnoresTicks :
    let s := withEvents halted [.cpuTick 1 2, .timerTick]
    s.mode.stopped = true ∧ Event.reset ∉ s.events := by decide

theorem witness_TimerTickCountsDown :
    (withEvents State.reset [.timerTick]).events = .timerTick :: [] ∧
    (withEvents State.reset [.timerTick]).mode.stopped = false ∧
    (withEvents halted [.timerTick]).events = .timerTick :: [] ∧
    (withEvents halted [.timerTick]).mode.stopped = true := by decide

theorem witness_TimersReachZeroAndStay :
    let s := withEvents (State.reset.writeDT 2#8) [.timerTick, .timerTick, .timerTick, .reset]
    s.mode.stopped = false ∧ s.events = List.replicate 3 .timerTick ++ [.reset] := by decide

theorem witness_KeyWaitLastsWhileNoKey :
    let s := withEvents atKeyWait [.timerTick, .cpuTick 0 5, .timerTick, .reset]
    s.mode.stopped = false ∧ s.pc.toNat + 1 ≤ 0xFFF ∧ decodeWord (s.mem.wordAt s.pc.toNat) = .ldVxK 3 ∧
      s.events = [.timerTick, .cpuTick 0 5, .timerTick] ++ [.reset] ∧
      (∀ e ∈ [Event.timerTick, .cpuTick 0 5, .timerTick], e = .timerTick ∨ ∃ rnd, e = .cpuTick 0 rnd) ∧
      (∃ rnd, Event.cpuTick 0 rnd ∈ [Event.timerTick, .cpuTick 0 5, .timerTick]) ∧
      ∀ rnd, Event.cpuTick 0 rnd ∉ [Event.timerTick] :=
  ⟨rfl, by decide, rfl, rfl, by simp, ⟨5, by simp⟩, by simp⟩

theorem witness_StoreIsSeenByNextFetch :
    let s := (State.reset.writePc 0xFFE#16).writeI 0xFFE#16
    s.mem.wf ∧ 1 ≤ (1 : Reg).val ∧ s.i = s.pc ∧ s.i.toNat + (1 : Reg).val ≤ 0xFFF :=
  ⟨Memory.reset_wf, by decide, rfl, by decide⟩

theorem witness_CallPushesReturnAddress : (depth 9).sp.val < 10 ∧ (depth 10).sp.val = 10 := by decide

theorem witness_ReturnPopsAddress : 0 < (depth 1).sp.val ∧ 0 < (depth 10).sp.val ∧ (depth 0).sp.val = 0 := by decide

theorem witness_ReturnGoesBackToCaller :
    ∃ t u, (depth 9).sp.val < 10 ∧ exec (.call 0x300#12) (depth 9) = .next t ∧ u ≠ t ∧ u.stack = t.stack ∧ u.sp = t.sp := by
  refine ⟨_, { (depth 9).writePc 0x777#16 with stack := (depth 9).stack.set 9 (depth 9).pc, sp := 10 }, by decide, rfl, ?_,
    rfl, rfl⟩
  intro h
  exact absurd (congrArg State.pc h) (by decide)

theorem witness_NoOperationChangesNothing : matchesNoRow 0x0000#16 = true ∧ matchesNoRow 0xFFFF#16 = true := by decide

theorem witness_flag_register_is_not_x : (14 : Reg) ≠ Reg.vf := by decide

theorem witness_RandomByteIsMasked :
    (State.reset.latch 0 (some 0xB7#8)).rnd = some 0xB7#8 ∧ (0x0F#8).getLsbD 4 = false ∧ (0x0F#8).getLsbD 7 = false := by
  decide

theorem witness_DecimalDigitsStored :
    (State.reset.writeI 0xFFD#16).mem.wf ∧ (State.reset.writeI 0xFFD#16).i.toNat + 2 ≤ 0xFFF :=
  ⟨Memory.reset_wf, by decide⟩

/-- For `Fx55`, `Fx65` and their round trip: sixteen registers at the last address that takes them. -/
theorem witness_RegistersStored :
    (State.reset.writeI 0xFF0#16).mem.wf ∧ (State.reset.writeI 0xFF0#16).i.toNat + (15 : Reg).val ≤ 0xFFF :=
  ⟨Memory.reset_wf, by decide⟩

theorem witness_RegistersLoaded : (State.reset.writeI 0xFFF#16).i.toNat + (0 : Reg).val ≤ 0xFFF := by decide

theorem witness_StoreThenLoadRestores :
    ∃ t u : State, (State.reset.writeI 0xFF0#16).mem.wf ∧ (State.reset.writeI 0xFF0#16).i.toNat + (15 : Reg).val ≤ 0xFFF ∧
      exec (.ldMemVx 15) (State.reset.writeI 0xFF0#16) = .next t ∧ u.readV 3 = 9#8 ∧ u.mem = t.mem ∧
      u.i = (State.reset.writeI 0xFF0#16).i :=
  ⟨_, ((State.reset.writeI 0xFF0#16).writeV 3 9#8).writeMem (Memory.store [] 0xFF0 (State.reset.regRun 15)),
    Memory.reset_wf, by decide, rfl, State.readV_writeV_same _ _ _, rfl, rfl⟩

theorem witness_OutOfRangeAccessFaults :
    touchesBeyondMemory (.ldB 0) (State.reset.writeI 0xFFE#16) ∧
    touchesBeyondMemory (.ldMemVx 1) (State.reset.writeI 0xFFF#16) ∧
    touchesBeyondMemory (.ldVxMem 0) (State.reset.writeI 0x1000#16) ∧
    touchesBeyondMemory (.drw 0 0 2#4) (State.reset.writeI 0xFFF#16) :=
  ⟨⟨2, by decide⟩, ⟨1, by decide⟩, ⟨0, by decide⟩, ⟨1, by decide⟩⟩

/-- D6, D7 and D8 of the vectors: no row at all, and a second row that is clipped. -/
theorem witness_DrawTogglesSpritePixels :
    ¬ touchesBeyondMemory (.drw 1 2 0#4) (State.reset.writeI 0xFFFF#16) ∧
    ¬ touchesBeyondMemory (.drw 1 2 2#4) ((State.reset.writeV 2 0x1F).writeI 0xFFF#16) := by
  constructor
  · rintro ⟨k, hk, -⟩
    exact absurd hk (Nat.not_lt_zero _)
  · rintro ⟨k, hk, h⟩
    have : bytesTouched (.drw 1 2 2#4) ((State.reset.writeV 2 0x1F).writeI 0xFFF#16) = 1 := by decide
    have hi : ((State.reset.writeV 2 0x1F).writeI 0xFFF#16).i.toNat = 0xFFF := rfl
    omega

theorem witness_DrawTwiceRestoresFramebuffer :
    (1 : Reg) ≠ Reg.vf ∧ (2 : Reg) ≠ Reg.vf ∧
      ¬ touchesBeyondMemory (.drw 1 2 2#4) ((State.reset.writeV 2 0x1F).writeI 0xFFF#16) :=
  ⟨by decide, by decide, witness_DrawTogglesSpritePixels.2⟩

theorem witness_PresentCountsCompletedDraws :
    (∃ t, exec (.drw 1 2 0#4) (State.reset.writeI 0xFFFF#16) = .next t ∧
      (∃ x y n, Instr.drw 1 2 0#4 = .drw x y n) ∧ ¬ touchesBeyondMemory (.drw 1 2 0#4) (State.reset.writeI 0xFFFF#16)) ∧
    (∃ t, exec .cls State.reset = .next t ∧ ¬ ∃ x y n, Instr.cls = .drw x y n) ∧
    (∃ t, exec (.drw 0 0 2#4) (State.reset.writeI 0xFFF#16) = .next t ∧
      touchesBeyondMemory (.drw 0 0 2#4) (State.reset.writeI 0xFFF#16)) :=
  ⟨⟨_, rfl, ⟨1, 2, 0#4, rfl⟩, witness_DrawTogglesSpritePixels.1⟩, ⟨_, rfl, nofun⟩,
    ⟨_, rfl, witness_OutOfRangeAccessFaults.2.2.2⟩⟩

theorem witness_KeySkips :
    ((State.reset.writeV 1 0x0F).readV 1).toNat ≤ 15 ∧ 15 < ((State.reset.writeV 1 0x10).readV 1).toNat := by decide

theorem witness_WaitForKey :
    (State.reset.latch 0 none).keys = 0 ∧ (State.reset.latch 0x8000#16 none).keys ≠ 0 := by decide

/-- `VF` under a logic operation (not named, not a flag), and `V1` under an addition. -/
theorem witness_RegistersWrittenOnlyByTheirWriters :
    (∃ t, exec (.or 0 1) State.reset = .next t ∧ namesDestination (.or 0 1) Reg.vf = false ∧
      ¬ (Reg.vf = Reg.vf ∧ writesFlag (.or 0 1) = true)) ∧
    (∃ t, exec (.addReg 0 1) State.reset = .next t ∧ namesDestination (.addReg 0 1) 1 = false ∧
      ¬ ((1 : Reg) = Reg.vf ∧ writesFlag (.addReg 0 1) = true)) :=
  ⟨⟨_, rfl, by decide, by decide⟩, ⟨_, rfl, by decide, by decide⟩⟩

theorem witness_StateWrittenOnlyByItsWriters :
    (∃ t, exec (.ldI 1#12) State.reset = .next t ∧ t.i ≠ State.reset.i) ∧
    (∃ t, exec (.call 1#12) State.reset = .next t ∧ t.stack ≠ State.reset.stack ∧ t.sp ≠ State.reset.sp) ∧
    (∃ t, exec (.ldDTVx 0) (State.reset.writeDT 1#8) = .next t ∧ t.dt ≠ (State.reset.writeDT 1#8).dt) ∧
    (∃ t, exec (.ldSTVx 0) (State.reset.writeST 1#8) = .next t ∧ t.st ≠ (State.reset.writeST 1#8).st) ∧
    (∃ t, exec .cls (State.reset.writeFb (Framebuffer.blank.toggle 0 0)) = .next t ∧
      t.fb ≠ (State.reset.writeFb (Framebuffer.blank.toggle 0 0)).fb) ∧
    (∃ t, exec (.ldMemVx 0) (State.reset.writeV 0 1#8) = .next t ∧ t.mem ≠ (State.reset.writeV 0 1#8).mem) := by
  refine ⟨⟨_, rfl, by decide⟩, ⟨_, rfl, by decide, by decide⟩, ⟨_, rfl, by decide⟩, ⟨_, rfl, by decide⟩,
    ⟨_, rfl, fun h => ?_⟩, ⟨_, rfl, by decide⟩⟩
  exact absurd (congrArg (fun fb => Framebuffer.pixel fb 0 0) h) (by decide)

theorem witness_ModeAfterEveryInstruction :
    (∀ c, ¬ RaisesFault (.jpV0 0xFFF#12) State.reset c) ∧ (∀ c, ¬ RaisesFault (.call 0#12) (depth 9) c) ∧
    (∀ c, ¬ RaisesFault (.ldVxK 0) State.reset c) :=
  ⟨fun _ h => h, fun _ h => absurd h.1 (by decide), fun _ h => h⟩

theorem witness_FaultsArePrecise :
    RaisesFault (.call 0#12) (depth 10) .stackOverflow ∧ RaisesFault .ret (depth 0) .stackUnderflow ∧
    RaisesFault (.ldB 0) (State.reset.writeI 0xFFE#16) .memRange ∧
    RaisesFault (.skp 1) (State.reset.writeV 1 0x10) .keyRange ∧
    ∃ t, exec .ret State.reset = .next t ∧ t.mode = .faulted :=
  ⟨⟨rfl, rfl⟩, ⟨rfl, rfl⟩, ⟨witness_OutOfRangeAccessFaults.1, rfl⟩, ⟨by decide, rfl⟩, ⟨_, rfl, rfl⟩⟩

theorem witness_SoundTimerDrivesNothing : ∃ t, core.run 2 State.reset = .next t := ⟨_, rfl⟩

/-- Two machines that differ in a slot above the depth. -/
theorem witness_DeadStackSlotsUnobservable :
    ∃ s' t, s' ≠ depth 1 ∧ SameLiveStack (depth 1) s' ∧ core.run 2 (depth 1) = .next t := by
  refine ⟨{ depth 1 with stack := (depth 1).stack.set 1 7#16 }, _, fun h => ?_, ⟨rfl, fun k h hk => ?_⟩, rfl⟩
  · exact absurd (congrArg (fun s : State => s.stack[1]) h) (by decide)
  · have h1 : (depth 1).sp.val = 1 := rfl
    exact Vector.getElem_set_ne (by decide) h (by omega)

theorem witness_InputsReadOnlyByTheirInstructions :
    ∃ t, exec .cls State.reset = .next t ∧ (∀ x, Instr.cls ≠ .skp x ∧ Instr.cls ≠ .sknp x ∧ Instr.cls ≠ .ldVxK x) ∧
      ∀ x nn, Instr.cls ≠ .rnd x nn := ⟨_, rfl, fun _ => ⟨nofun, nofun, nofun⟩, nofun⟩

theorem witness_MemoryReadsLastWrite : Memory.wf [(0xFFF, 1#8)] ∧ (0x000 : Nat) ≠ 0xFFF ∧ 0xFFF < 0x1000 := by decide

theorem witness_CanonicalMemoriesWithEqualReadsAreEqual :
    Memory.wf [(0, 1#8), (0xFFF, 2#8)] ∧
      ∀ a, a < 0x1000 → Memory.read [(0, 1#8), (0xFFF, 2#8)] a = Memory.read [(0, 1#8), (0xFFF, 2#8)] a :=
  ⟨by decide, fun _ _ => rfl⟩

theorem witness_LaunchPlacesFontAndProgram :
    State.reset.mem.wf ∧ (List.replicate 80 0xF0#8).length = 80 ∧ (List.replicate 3584 0x01#8).length ≤ 3584 :=
  ⟨Memory.reset_wf, List.length_replicate, Nat.le_of_eq List.length_replicate⟩

theorem witness_PlacedWordIsExecutedNext : halted.mem.wf ∧ 0xFFFF < 0x10000 := ⟨halted_inv.memCanonical, by decide⟩

end Sys2Proof.Tests
end

namespace Sys2Proof.Machine

/-! ### What an answered instruction and a run can have done -/

/-- `exec_cases` turned around: the next state carries the instruction's fault, or is the completed state after the
mode update of R65. -/
theorem exec_next_cases {i : Instr} {s t : State} (h : exec i s = .next t) :
    (∃ c, RaisesFault i s c ∧ t = faultedWith c s) ∨
    ∃ u wait, Completes i s u wait ∧ t = u.writeMode (modeAfter wait u.pc) := by
  rcases exec_cases i s with ⟨c, hc, he⟩ | ⟨u, wait, hu⟩
  · rw [he] at h; cases h; exact .inl ⟨c, hc, rfl⟩
  · rw [hu.result, finish_eq] at h; cases h; exact .inr ⟨u, wait, hu, rfl⟩

theorem run_succ {n : Nat} {s t : State} (h : core.run (n + 1) s = .next t) :
    ∃ u, step s = .next u ∧ core.run n u = .next t := by
  cases hs : step s with
  | next u => exact ⟨u, rfl, by rwa [run_next n hs] at h⟩
  | fault r => nomatch r
  | refused r =>
    have hs' : core.step s = .refused r := hs
    simp only [Host.Core.run, hs', reduceCtorEq] at h

/-- What every step keeps holds along every run. -/
theorem run_keeps {P : State → Prop} (hstep : ∀ s t, P s → step s = .next t → P t) {n : Nat} {s t : State}
    (hs : P s) (h : core.run n s = .next t) : P t := by
  induction n generalizing s with
  | zero => cases h; exact hs
  | succ n ih =>
    obtain ⟨u, hu, ht⟩ := run_succ h
    exact ih (hstep s u hs hu) ht

/-! ### The bounds of `PC` (R15) -/

theorem zext12_toNat_le (nnn : Addr12) : (zext12 nnn).toNat ≤ 0xFFF := by
  have := nnn.isLt
  simp only [zext12, BitVec.toNat_setWidth]; omega

theorem zext8_toNat_le (b : Byte) : (zext8 b).toNat ≤ 0xFF := by
  have := b.isLt
  simp only [zext8, BitVec.toNat_setWidth]; omega

theorem skip_toNat_le {pc : Word} (h : pc.toNat ≤ 0x1000) (c : Prop) [Decidable c] :
    (if c then pc + 2 else pc).toNat ≤ 0x1002 := by
  split <;> bv_omega

/-! ### The invariant -/

/-- The timers, `V`, `I`, the picture and the environment's record are no part of the invariant. -/
theorem State.Inv.congr {s t : State} (h : s.Inv) (hmem : t.mem = s.mem) (hpc : t.pc = s.pc) (hmode : t.mode = s.mode)
    (hcause : t.faultCause = s.faultCause) (hstack : t.stack = s.stack) (hsp : t.sp = s.sp) : t.Inv := by
  obtain ⟨h1, h2, h3, h4, h5, h6, h7⟩ := h
  constructor <;> simpa only [hmem, hpc, hmode, hcause, hstack, hsp]

/-- The state an instruction `i` executes in: fetched from a state with the invariant, `PC` past it. -/
structure Fetched (i : Instr) (s : State) : Prop where
  memCanonical : s.mem.wf
  pcPast : 2 ≤ s.pc.toNat ∧ s.pc.toNat ≤ 0x1000
  noCause : s.faultCause = .none
  returnAddresses : ∀ (k : Nat) (h : k < 10), k < s.sp.val → (s.stack[k]'h).toNat ≤ 0x1000
  word : decodeWord (s.mem.wordAt (s.pc - 2).toNat) = i

theorem State.Inv.noCause {s : State} (h : s.Inv) (hm : s.mode.stopped = false) : s.faultCause = .none := by
  by_contra hc
  rw [h.causeInFault.2 hc] at hm
  cases hm

theorem State.Inv.fetched {s : State} (h : s.Inv) (hm : s.mode.stopped = false) (hpc : s.pc.toNat + 1 ≤ 0xFFF) :
    Fetched (decodeWord (s.mem.wordAt s.pc.toNat)) (s.writePc (s.pc + 2)) where
  memCanonical := h.memCanonical
  pcPast := by simp only [State.writePc_pc]; bv_omega
  noCause := h.noCause hm
  returnAddresses := h.returnAddresses
  word := by simp

/-- A fault (R122) raised with `PC` at most 0x1000 leads to a state with the invariant. -/
theorem faultedWith_inv {s : State} {c : FaultCause} (hmem : s.mem.wf) (hpc : s.pc.toNat ≤ 0x1000)
    (hret : ∀ (k : Nat) (h : k < 10), k < s.sp.val → (s.stack[k]'h).toNat ≤ 0x1000) (hc : c ≠ .none) :
    (faultedWith c s).Inv where
  memCanonical := hmem
  runningPc := nofun
  haltedPc := nofun
  faultedPc := fun _ => hpc
  causeInFault := ⟨fun _ => hc, fun _ => rfl⟩
  returnAddresses := hret
  keyWaitAtFx0A := nofun

theorem RaisesFault.cause_ne_none {i : Instr} {s : State} {c : FaultCause} (h : RaisesFault i s c) : c ≠ .none := by
  rintro rfl
  cases i <;> simp [RaisesFault] at h

theorem touches_cause (i : Instr) (s : State) : (touches i s).cause = false := by cases i <;> rfl

/-- A live slot after an instruction is the one a `CALL` has pushed, or was live before. -/
theorem Completes.liveSlot {i : Instr} {s u : State} {wait : Bool} (h : Completes i s u wait) {k : Nat} (hk : k < 10)
    (hlive : k < u.sp.val) : u.stack[k] = s.pc ∨ k < s.sp.val ∧ u.stack[k] = s.stack[k] := by
  cases i with
  | call nnn =>
    obtain ⟨hsp, hpushed, hdepth⟩ := h.pushed nnn rfl
    rcases Nat.lt_or_ge k s.sp.val with hlt | hge
    · exact .inr ⟨hlt, h.frame.stack k hk (by simpa [touches] using hlt.ne)⟩
    · obtain rfl : k = s.sp.val := by omega
      exact .inl hpushed
  | ret =>
    obtain ⟨hpos, hdepth⟩ := h.popped rfl
    exact .inr ⟨by omega, h.frame.stack k hk rfl⟩
  | _ => exact .inr ⟨by rwa [h.frame.sp rfl] at hlive, h.frame.stack k hk rfl⟩

/-- R15: no instruction that completes puts `PC` past 0x10FE, which `Bnnn` reaches. -/
theorem Fetched.nextPc_le {i : Instr} {s u : State} {wait : Bool} (h : Fetched i s) (hu : Completes i s u wait) :
    (nextPc i s).toNat ≤ 0x10FE := by
  obtain ⟨hlow, hhigh⟩ := h.pcPast
  cases i with
  | jp nnn => exact (zext12_toNat_le nnn).trans (by decide)
  | call nnn => exact (zext12_toNat_le nnn).trans (by decide)
  | jpV0 nnn =>
    have := zext12_toNat_le nnn
    have := zext8_toNat_le (s.readV 0)
    simp only [nextPc, BitVec.toNat_add]; omega
  | ret =>
    obtain ⟨hpos, -⟩ := hu.popped rfl
    simp only [nextPc, dif_pos hpos]
    exact (h.returnAddresses _ (by omega) (by omega)).trans (by decide)
  | ldVxK x => simp only [nextPc]; split <;> bv_omega
  | seImm | sneImm | seReg | sneReg | skp | sknp => exact (skip_toNat_le hhigh _).trans (by decide)
  | _ => exact hhigh.trans (by decide)

/-- An instruction keeps the invariant (R65, R122). -/
theorem Fetched.inv_of_exec {i : Instr} {s t : State} (h : Fetched i s) (ht : exec i s = .next t) : t.Inv := by
  rcases exec_next_cases ht with ⟨c, hc, rfl⟩ | ⟨u, wait, hu, rfl⟩
  · exact faultedWith_inv h.memCanonical h.pcPast.2 h.returnAddresses hc.cause_ne_none
  have hnone : u.faultCause = .none := (hu.frame.cause (touches_cause i s)).trans h.noCause
  have hpc : u.pc.toNat ≤ 0x10FE := hu.pc ▸ h.nextPc_le hu
  constructor
  case memCanonical => exact hu.memory h.memCanonical
  case runningPc =>
    intro hm
    by_contra hgt
    have hhalted := (modeAfter_halted wait u.pc).2 (Nat.lt_of_not_le hgt)
    rw [State.writeMode_mode, hhalted] at hm
    cases hm
  case haltedPc => exact fun hm => ⟨(modeAfter_halted wait u.pc).1 hm, hpc⟩
  case faultedPc => exact fun hm => absurd hm (modeAfter_ne_faulted wait u.pc)
  case causeInFault => exact iff_of_false (modeAfter_ne_faulted wait u.pc) (not_not.2 hnone)
  case returnAddresses =>
    intro k hk hlive
    rcases hu.liveSlot hk hlive with hpushed | ⟨hlt, hkept⟩
    · exact hpushed ▸ h.pcPast.2
    · exact hkept ▸ h.returnAddresses k hk hlt
  case keyWaitAtFx0A =>
    intro hm
    obtain ⟨-, hw⟩ := (modeAfter_keyWait wait u.pc).1 hm
    obtain ⟨⟨x, rfl⟩, hkeys⟩ := hu.waits.1 hw
    have hback : u.pc = s.pc - 2 := hu.pc.trans (if_pos hkeys)
    have hword (a : Nat) : u.mem.wordAt a = s.mem.wordAt a := by
      simp only [Memory.wordAt, hu.frame.mem _ rfl]
    have := h.pcPast
    simp only [State.writeMode_pc, State.writeMode_mem, hback, hword]
    exact ⟨by bv_omega, x, h.word⟩

theorem State.Inv.runInstruction {s t : State} (h : s.Inv) (hm : s.mode.stopped = false)
    (ht : runInstruction s = .next t) : t.Inv := by
  rcases Nat.lt_or_ge 0xFFF (s.pc.toNat + 1) with hpc | hpc
  · rw [runInstruction_fetchRange hpc] at ht
    cases ht
    exact faultedWith_inv h.memCanonical ((h.runningPc hm).trans (by decide)) h.returnAddresses nofun
  · rw [runInstruction_ok hpc] at ht
    exact (h.fetched hm hpc).inv_of_exec ht

theorem State.Inv.cpuTick {s t : State} (h : s.Inv) {keys : KeyLevels} {rnd : Option Byte}
    (ht : cpuTick keys rnd s = .next t) : t.Inv := by
  cases hm : s.mode.stopped
  · rw [cpuTick_running keys rnd hm] at ht
    have hs : (s.latch keys rnd).Inv := h.congr rfl rfl rfl rfl rfl rfl
    exact hs.runInstruction hm ht
  · rw [cpuTick_stopped keys rnd hm] at ht
    cases ht; exact h

theorem State.Inv.timerTick {s : State} (h : s.Inv) : (timerTick s).Inv := by
  cases hm : s.mode.stopped
  · rw [timerTick_running hm]; exact h.congr rfl rfl rfl rfl rfl rfl
  · rwa [timerTick_stopped hm]

/-- R140, R141: `reset` keeps the invariant, whatever the state was but for its memory. -/
theorem resetBlock_inv {s : State} (h : s.mem.wf) : (resetBlock s).Inv where
  memCanonical := h
  runningPc := fun _ => show (Config.pcReset).toNat ≤ 0xFFF by decide
  haltedPc := nofun
  faultedPc := nofun
  causeInFault := iff_of_false nofun (not_not.2 rfl)
  returnAddresses := fun k _ hk => absurd hk (Nat.not_lt_zero k)
  keyWaitAtFx0A := nofun

/-- Settles O14: by the event at the head of the list. -/
theorem stepKeepsGoodState : Obligations.StepKeepsGoodState := by
  unfold Obligations.StepKeepsGoodState
  intro s t h ht
  cases he : s.events with
  | nil =>
    rw [step_noEvent he] at ht
    have hs : State.Inv { s with draws := s.draws + 1 } := h.congr rfl rfl rfl rfl rfl rfl
    exact hs.cpuTick ht
  | cons e rest =>
    have hrest : State.Inv { s with events := rest } := h.congr rfl rfl rfl rfl rfl rfl
    cases e with
    | cpuTick keys rnd => rw [step_cpuTick he] at ht; exact hrest.cpuTick ht
    | timerTick => rw [step_timerTick he] at ht; cases ht; exact hrest.timerTick
    | reset => rw [step_reset he] at ht; cases ht; exact resetBlock_inv h.memCanonical

/-- Settles O15: the invariant of O14 holds along the run and bounds `PC` in every mode. -/
theorem pcStaysBoundedOnRuns : Obligations.PcStaysBoundedOnRuns := by
  unfold Obligations.PcStaysBoundedOnRuns
  intro n s t hs h
  have ht : t.Inv := run_keeps stepKeepsGoodState hs h
  refine ⟨?_, ht.runningPc⟩
  cases hm : t.mode with
  | running | keyWait => exact (ht.runningPc (by rw [hm]; rfl)).trans (by decide)
  | halted => exact (ht.haltedPc hm).2
  | faulted => exact (ht.faultedPc hm).trans (by decide)

/-! ### The writers of the registers (R12), and the state after reset (R140) -/

theorem touches_v_eq_false {i : Instr} {r : Reg} (hdest : namesDestination i r = false)
    (hflag : ¬ (r = Reg.vf ∧ writesFlag i = true)) (s : State) : (touches i s).v r = false := by
  cases i <;> simp_all [touches, namesDestination, writesFlag]

/-- Settles O48: a fault writes no register, and a completed instruction only those it touches. -/
theorem registersWrittenOnlyByTheirWriters : Obligations.RegistersWrittenOnlyByTheirWriters := by
  unfold Obligations.RegistersWrittenOnlyByTheirWriters
  intro i s t r h hdest hflag
  rcases exec_next_cases h with ⟨c, -, rfl⟩ | ⟨u, wait, hu, rfl⟩
  · rfl
  · rw [State.readV_writeMode]
    exact hu.frame.regs r (touches_v_eq_false hdest hflag s)

/-- Settles O11: by evaluation, slot by slot and pixel by pixel for the two arrays. -/
theorem resetStateValues : Obligations.ResetStateValues := by
  unfold Obligations.ResetStateValues
  refine ⟨fun r => ?_, rfl, rfl, rfl, fun k hk => ?_, rfl, rfl, rfl, rfl, rfl, Framebuffer.pixel_blank, rfl⟩
  · simp [State.reset, State.readV]
  · simp [State.reset]

end Sys2Proof.Machine

namespace Sys2Proof.Machine

/-! ### Edits of what most instructions do not look at

O52, O53 and O54 each change a field that few instructions use. `exec_edit` says once that every other instruction
runs alike after the change. -/

/-- A change of `ST`, the call-stack slots and the sampled inputs, each from its own old value. -/
structure Edit where
  st : Byte → Byte := id
  stack : Vector Word 10 → Vector Word 10 := id
  keys : KeyLevels → KeyLevels := id
  rnd : Option Byte → Option Byte := id
  draws : Nat → Nat := id

/-- The state with the edited fields. -/
def Edit.apply (e : Edit) (s : State) : State :=
  { s with st := e.st s.st, stack := e.stack s.stack, keys := e.keys s.keys, rnd := e.rnd s.rnd,
           draws := e.draws s.draws }

/-- The edit leaves alone what the instruction reads or writes of the fields an edit can change (10_state.md, the
summary). -/
def Edit.avoids (e : Edit) : Instr → Prop
  | .call _ | .ret => e.stack = id
  | .ldSTVx _ => e.st = id
  | .skp _ | .sknp _ | .ldVxK _ => e.keys = id
  | .rnd _ _ => e.rnd = id ∧ e.draws = id
  | _ => True

theorem finish_edit (e : Edit) {kw : Bool} {u t : State} (h : finish kw u = .next t) :
    finish kw (e.apply u) = .next (e.apply t) := by
  cases h; rfl

theorem raise_edit (e : Edit) {r : Raised} {s t : State} (h : raise r s = .next t) :
    raise r (e.apply s) = .next (e.apply t) := by
  cases h; rfl

theorem skipIf_edit (e : Edit) (c : Bool) (s : State) : (e.apply s).skipIf c = e.apply (s.skipIf c) := by
  cases c <;> rfl

theorem finish_skipIf_edit (e : Edit) {c : Bool} {s t : State} (h : finish false (s.skipIf c) = .next t) :
    finish false ((e.apply s).skipIf c) = .next (e.apply t) := by
  rw [skipIf_edit]; exact finish_edit e h

theorem checkRange_edit (e : Edit) (n : Nat) (s : State) : (e.apply s).checkRange n = s.checkRange n := rfl

theorem keyIndex_edit (e : Edit) (x : Reg) (s : State) : (e.apply s).keyIndex x = s.keyIndex x := rfl

theorem drawCount_edit (e : Edit) (y : Reg) (n : BitVec 4) (s : State) :
    (e.apply s).drawCount y n = s.drawCount y n := rfl

theorem loadedRegs_edit (e : Edit) (x : Reg) (s : State) : (e.apply s).loadedRegs x = s.loadedRegs x := rfl

theorem writeRegs_edit (e : Edit) (v : Vector Byte 16) (s : State) :
    (e.apply s).writeRegs v = e.apply (s.writeRegs v) := rfl

theorem drawn_edit (e : Edit) (x y : Reg) (n : BitVec 4) (s : State) :
    (e.apply s).drawn x y n = s.drawn x y n := rfl

theorem keyDown_edit {e : Edit} (he : e.keys = id) (s : State) : (e.apply s).keyDown = s.keyDown := by
  funext k; simp only [State.keyDown, Edit.apply, he, id]

theorem lowestKey_edit {e : Edit} (he : e.keys = id) (s : State) : (e.apply s).lowestKey = s.lowestKey := by
  simp only [State.lowestKey, keyDown_edit he]

theorem randomByte_edit {e : Edit} (hrnd : e.rnd = id) (hdraws : e.draws = id) (s : State) :
    (e.apply s).randomByte = s.randomByte := by
  simp only [State.randomByte, Edit.apply, hrnd, hdraws, id]

/-! ### `CALL` and `RET` by the depth of the stack (R72, R73) -/

theorem execCall_room {s : State} (nnn : Addr12) (h : s.sp.val < 10) :
    execCall nnn s = finish false
      { s with stack := s.stack.set s.sp.val s.pc, sp := ⟨s.sp.val + 1, by omega⟩, pc := zext12 nnn } := by
  simp only [execCall, State.push_ok s.pc h]; rfl

theorem execCall_full {s : State} (nnn : Addr12) (h : s.sp.val = 10) :
    execCall nnn s = .next (faultedWith .stackOverflow s) := by
  simp only [execCall, State.push_full s.pc h]; rfl

theorem execRet_stacked {s : State} (h : 0 < s.sp.val) :
    execRet s = finish false
      { s with pc := s.stack[s.sp.val - 1]'(by omega), sp := ⟨s.sp.val - 1, by omega⟩ } := by
  simp only [execRet, State.pop_ok h]; rfl

theorem execRet_empty {s : State} (h : s.sp.val = 0) : execRet s = .next (faultedWith .stackUnderflow s) := by
  simp only [execRet, State.pop_empty h]; rfl

theorem execRet_edit {e : Edit} (he : e.stack = id) {s t : State} (h : execRet s = .next t) :
    execRet (e.apply s) = .next (e.apply t) := by
  rcases Nat.eq_zero_or_pos s.sp.val with hempty | hpos
  · rw [execRet_empty hempty] at h
    cases h
    exact execRet_empty (s := e.apply s) hempty
  · rw [execRet_stacked hpos] at h
    rw [execRet_stacked (s := e.apply s) hpos]
    simpa only [Edit.apply, he, id] using finish_edit e h

theorem execCall_edit {e : Edit} (he : e.stack = id) {nnn : Addr12} {s t : State} (h : execCall nnn s = .next t) :
    execCall nnn (e.apply s) = .next (e.apply t) := by
  rcases Nat.lt_succ_iff_lt_or_eq.1 s.sp.isLt with hroom | hfull
  · rw [execCall_room nnn hroom] at h
    rw [execCall_room (s := e.apply s) nnn hroom]
    simpa only [Edit.apply, he, id] using finish_edit e h
  · rw [execCall_full nnn hfull] at h
    cases h
    exact execCall_full (s := e.apply s) nnn hfull

/-! ### Every instruction under an edit -/

/-- An instruction runs alike before and after an edit of what it neither reads nor writes. -/
theorem exec_edit {e : Edit} {i : Instr} {s t : State} (he : e.avoids i) (h : exec i s = .next t) :
    exec i (e.apply s) = .next (e.apply t) := by
  cases i with
  | seImm | sneImm | seReg | sneReg => exact finish_skipIf_edit e h
  | ret => exact execRet_edit he h
  | call nnn => exact execCall_edit he h
  | rnd x nn =>
    simp only [exec, execRnd, randomByte_edit he.1 he.2]
    exact finish_edit e h
  | ldSTVx x =>
    cases h
    simp only [exec, execLdSTVx, finish, Edit.apply, show e.st = id from he]
    rfl
  | ldVxK x =>
    simp only [exec, execLdVxK, lowestKey_edit he] at h ⊢
    split at h <;> exact finish_edit e h
  | skp x | sknp x =>
    simp only [exec, execSkp, execSknp, keyIndex_edit, keyDown_edit he] at h ⊢
    split at h
    · exact raise_edit e h
    · exact finish_skipIf_edit e h
  | drw x y n =>
    simp only [exec, execDrw, checkRange_edit, drawCount_edit, drawn_edit] at h ⊢
    split at h
    · exact raise_edit e h
    · exact finish_edit e h
  | ldB x | ldMemVx x | ldVxMem x =>
    simp only [exec, execLdB, execLdMemVx, execLdVxMem, checkRange_edit, loadedRegs_edit, writeRegs_edit] at h ⊢
    split at h
    · exact raise_edit e h
    · exact finish_edit e h
  | _ => exact finish_edit e h

/-- Settles O54: new keys, or a new random byte, are an edit that every other instruction avoids. -/
theorem inputsReadOnlyByTheirInstructions : Obligations.InputsReadOnlyByTheirInstructions := by
  unfold Obligations.InputsReadOnlyByTheirInstructions
  intro i s t h
  constructor
  · intro keys hi
    have he : Edit.avoids { keys := fun _ => keys } i := by cases i <;> simp_all [Edit.avoids]
    exact exec_edit he h
  · intro rnd draws hi
    have he : Edit.avoids { rnd := fun _ => rnd, draws := fun _ => draws } i := by
      cases i <;> simp_all [Edit.avoids]
    exact exec_edit he h

/-! ### Relations that every event keeps -/

/-- A relation between two machines that see the same things at the start of an event, kept by each part of one. -/
structure KeptByEvents (R : State → State → Prop) : Prop where
  sees : ∀ {s s'}, R s s' → s'.pc = s.pc ∧ s'.mode = s.mode ∧ s'.mem = s.mem ∧ s'.keys = s.keys ∧
    s'.events = s.events ∧ s'.draws = s.draws
  record : ∀ {s s'}, R s s' → ∀ events draws,
    R { s with events := events, draws := draws } { s' with events := events, draws := draws }
  latch : ∀ {s s'}, R s s' → ∀ keys rnd, R (s.latch keys rnd) (s'.latch keys rnd)
  writePc : ∀ {s s'}, R s s' → ∀ a, R (s.writePc a) (s'.writePc a)
  faultedWith : ∀ {s s'}, R s s' → ∀ c, R (faultedWith c s) (faultedWith c s')
  exec : ∀ {i s s' t}, R s s' → exec i s = .next t → ∃ t', exec i s' = .next t' ∧ R t t'
  timerTick : ∀ {s s'}, R s s' → R (timerTick s) (timerTick s')
  resetBlock : ∀ {s s'}, R s s' → R (resetBlock s) (resetBlock s')

section
variable {R : State → State → Prop} (hR : KeptByEvents R)
include hR

theorem KeptByEvents.runInstruction {s s' t : State} (h : R s s') (ht : runInstruction s = .next t) :
    ∃ t', runInstruction s' = .next t' ∧ R t t' := by
  obtain ⟨hpc, -, hmem, -⟩ := hR.sees h
  rcases Nat.lt_or_ge 0xFFF (s.pc.toNat + 1) with hout | hin
  · rw [runInstruction_fetchRange hout] at ht
    cases ht
    exact ⟨_, runInstruction_fetchRange (hpc ▸ hout), hR.faultedWith h _⟩
  · rw [runInstruction_ok hin] at ht
    rw [runInstruction_ok (hpc ▸ hin), hpc, hmem]
    exact hR.exec (hR.writePc h _) ht

theorem KeptByEvents.cpuTick {s s' t : State} (h : R s s') {keys : KeyLevels} {rnd : Option Byte}
    (ht : cpuTick keys rnd s = .next t) : ∃ t', cpuTick keys rnd s' = .next t' ∧ R t t' := by
  obtain ⟨-, hmode, -⟩ := hR.sees h
  cases hm : s.mode.stopped
  · rw [cpuTick_running keys rnd hm] at ht
    rw [cpuTick_running keys rnd (hmode ▸ hm)]
    exact hR.runInstruction (hR.latch h keys rnd) ht
  · rw [cpuTick_stopped keys rnd hm] at ht
    cases ht
    exact ⟨s', cpuTick_stopped keys rnd (hmode ▸ hm), h⟩

theorem KeptByEvents.step {s s' t : State} (h : R s s') (ht : step s = .next t) :
    ∃ t', step s' = .next t' ∧ R t t' := by
  obtain ⟨-, -, -, hkeys, hevents, hdraws⟩ := hR.sees h
  have hrest (rest : List Event) : R { s with events := rest } { s' with events := rest } := by
    simpa only [hdraws] using hR.record h rest s.draws
  cases he : s.events with
  | nil =>
    have hdrawn : R { s with draws := s.draws + 1 } { s' with draws := s.draws + 1 } := by
      simpa only [hevents] using hR.record h s.events (s.draws + 1)
    rw [step_noEvent he] at ht
    simpa only [step_noEvent (hevents.trans he), hkeys, hdraws] using hR.cpuTick hdrawn ht
  | cons e rest =>
    cases e with
    | cpuTick keys rnd =>
      rw [step_cpuTick he] at ht
      rw [step_cpuTick (hevents.trans he)]
      exact hR.cpuTick (hrest rest) ht
    | timerTick =>
      rw [step_timerTick he] at ht
      cases ht
      exact ⟨_, step_timerTick (hevents.trans he), hR.timerTick (hrest rest)⟩
    | reset =>
      rw [step_reset he] at ht
      cases ht
      exact ⟨_, step_reset (hevents.trans he), hR.resetBlock (hrest rest)⟩

theorem KeptByEvents.run {n : Nat} {s s' t : State} (h : R s s') (ht : core.run n s = .next t) :
    ∃ t', core.run n s' = .next t' ∧ R t t' := by
  induction n generalizing s s' with
  | zero => cases ht; exact ⟨s', run_zero s', h⟩
  | succ n ih =>
    obtain ⟨u, hu, hrun⟩ := run_succ ht
    obtain ⟨u', hu', hRu⟩ := hR.step h hu
    rw [run_next n hu']
    exact ih hRu hrun

end

/-! ### The sound timer (R134) -/

/-- The two states differ at most in `ST`. -/
def SameButST (s s' : State) : Prop := ∃ b, s' = { s with st := b }

theorem SameButST.exec {i : Instr} {s s' t : State} (h : SameButST s s') (ht : exec i s = .next t) :
    ∃ t', exec i s' = .next t' ∧ SameButST t t' := by
  obtain ⟨b, rfl⟩ := h
  by_cases hi : ∃ x, i = .ldSTVx x
  · obtain ⟨x, rfl⟩ := hi
    exact ⟨t, ht, t.st, rfl⟩
  · have he : Edit.avoids { st := fun _ => b } i := by cases i <;> simp_all [Edit.avoids]
    exact ⟨_, exec_edit he ht, b, rfl⟩

theorem SameButST.timerTick {s s' : State} (h : SameButST s s') : SameButST (timerTick s) (timerTick s') := by
  obtain ⟨b, rfl⟩ := h
  cases hm : s.mode.stopped
  · rw [timerTick_running hm, timerTick_running (s := { s with st := b }) hm]; exact ⟨_, rfl⟩
  · rw [timerTick_stopped hm, timerTick_stopped (s := { s with st := b }) hm]; exact ⟨_, rfl⟩

theorem sameButST_keptByEvents : KeptByEvents SameButST where
  sees := by rintro s _ ⟨b, rfl⟩; simp only [and_self]
  record := by rintro s _ ⟨b, rfl⟩ events draws; exact ⟨b, rfl⟩
  latch := by rintro s _ ⟨b, rfl⟩ keys rnd; exact ⟨b, rfl⟩
  writePc := by rintro s _ ⟨b, rfl⟩ a; exact ⟨b, rfl⟩
  faultedWith := by rintro s _ ⟨b, rfl⟩ c; exact ⟨b, rfl⟩
  exec := SameButST.exec
  timerTick := SameButST.timerTick
  resetBlock := by rintro s _ ⟨b, rfl⟩; exact ⟨0, rfl⟩

/-- Settles O52: every event keeps two machines equal but for `ST`. -/
theorem soundTimerDrivesNothing : Obligations.SoundTimerDrivesNothing := by
  unfold Obligations.SoundTimerDrivesNothing
  intro n s t b h
  obtain ⟨_, hrun, b', rfl⟩ := sameButST_keptByEvents.run ⟨b, rfl⟩ h
  exact ⟨b', hrun⟩

/-! ### Slots above the depth (R17) -/

/-- `SameLiveStack` with the second stack as a variable. -/
theorem sameLiveStack_iff {s s' : State} : SameLiveStack s s' ↔
    ∃ w : Vector Word 10, s' = { s with stack := w } ∧ ∀ (k : Nat) (h : k < 10), k < s.sp.val → w[k] = s.stack[k] :=
  ⟨fun h => ⟨s'.stack, h⟩, by rintro ⟨w, rfl, h⟩; exact ⟨rfl, h⟩⟩

theorem SameLiveStack.execCall {nnn : Addr12} {s s' t : State} (h : SameLiveStack s s')
    (ht : execCall nnn s = .next t) : ∃ t', execCall nnn s' = .next t' ∧ SameLiveStack t t' := by
  obtain ⟨w, rfl, hw⟩ := sameLiveStack_iff.1 h
  rcases Nat.lt_succ_iff_lt_or_eq.1 s.sp.isLt with hroom | hfull
  · rw [execCall_room nnn hroom] at ht
    cases ht
    refine ⟨_, execCall_room (s := { s with stack := w }) nnn hroom, sameLiveStack_iff.2 ⟨_, rfl, fun k hk hlive => ?_⟩⟩
    have hlive' : k < s.sp.val + 1 := hlive
    simp only [State.writeMode_stack, Vector.getElem_set]
    split
    · rfl
    · exact hw k hk (by omega)
  · rw [execCall_full nnn hfull] at ht
    cases ht
    exact ⟨_, execCall_full nnn hfull, sameLiveStack_iff.2 ⟨w, rfl, hw⟩⟩

theorem SameLiveStack.execRet {s s' t : State} (h : SameLiveStack s s') (ht : execRet s = .next t) :
    ∃ t', execRet s' = .next t' ∧ SameLiveStack t t' := by
  obtain ⟨w, rfl, hw⟩ := sameLiveStack_iff.1 h
  rcases Nat.eq_zero_or_pos s.sp.val with hempty | hpos
  · rw [execRet_empty hempty] at ht
    cases ht
    exact ⟨_, execRet_empty hempty, sameLiveStack_iff.2 ⟨w, rfl, hw⟩⟩
  · have htop := hw (s.sp.val - 1) (by omega) (by omega)
    rw [execRet_stacked hpos] at ht
    cases ht
    rw [execRet_stacked (s := { s with stack := w }) hpos]
    simp only [htop]
    exact ⟨_, rfl, sameLiveStack_iff.2 ⟨w, rfl, fun k hk hlive => hw k hk (Nat.lt_of_lt_pred hlive)⟩⟩

/-- Only `CALL` and `RET` use the call stack. -/
theorem exec_keeps_stack {i : Instr} {s t : State} (h : exec i s = .next t) (hcall : ∀ nnn, i ≠ .call nnn)
    (hret : i ≠ .ret) : t.sp = s.sp ∧ ∀ (k : Nat) (h : k < 10), t.stack[k] = s.stack[k] := by
  have hno : (touches i s).sp = false ∧ ∀ k, (touches i s).slot k = false := by
    cases i <;> simp_all [touches]
  rcases exec_next_cases h with ⟨c, -, rfl⟩ | ⟨u, wait, hu, rfl⟩
  · exact ⟨rfl, fun _ _ => rfl⟩
  · exact ⟨hu.frame.sp hno.1, fun k hk => hu.frame.stack k hk (hno.2 k)⟩

theorem SameLiveStack.exec {i : Instr} {s s' t : State} (h : SameLiveStack s s') (ht : exec i s = .next t) :
    ∃ t', exec i s' = .next t' ∧ SameLiveStack t t' := by
  by_cases hcall : ∃ nnn, i = .call nnn
  · obtain ⟨nnn, rfl⟩ := hcall; exact h.execCall ht
  by_cases hret : i = .ret
  · subst hret; exact h.execRet ht
  obtain ⟨w, rfl, hw⟩ := sameLiveStack_iff.1 h
  have he : Edit.avoids { stack := fun _ => w } i := by cases i <;> simp_all [Edit.avoids]
  obtain ⟨hsp, hstack⟩ := exec_keeps_stack ht (not_exists.1 hcall) hret
  refine ⟨_, exec_edit he ht, sameLiveStack_iff.2 ⟨w, rfl, fun k hk hlive => ?_⟩⟩
  rw [hstack k hk]
  exact hw k hk (hsp ▸ hlive)

theorem SameLiveStack.timerTick {s s' : State} (h : SameLiveStack s s') :
    SameLiveStack (timerTick s) (timerTick s') := by
  obtain ⟨w, rfl, hw⟩ := sameLiveStack_iff.1 h
  cases hm : s.mode.stopped
  · rw [timerTick_running hm, timerTick_running (s := { s with stack := w }) hm]; exact ⟨rfl, hw⟩
  · rw [timerTick_stopped hm, timerTick_stopped (s := { s with stack := w }) hm]; exact ⟨rfl, hw⟩

theorem sameLiveStack_keptByEvents : KeptByEvents SameLiveStack where
  sees := by rintro s _ ⟨h, -⟩; rw [h]; simp only [and_self]
  record := by rintro s s' ⟨h, hw⟩ events draws; exact ⟨by rw [h], hw⟩
  latch := by rintro s s' ⟨h, hw⟩ keys rnd; exact ⟨by rw [h]; rfl, hw⟩
  writePc := by rintro s s' ⟨h, hw⟩ a; exact ⟨by rw [h]; rfl, hw⟩
  faultedWith := by rintro s s' ⟨h, hw⟩ c; exact ⟨by rw [h]; rfl, hw⟩
  exec := SameLiveStack.exec
  timerTick := SameLiveStack.timerTick
  resetBlock := by rintro s s' ⟨h, hw⟩; exact ⟨by rw [h]; rfl, fun _ _ _ => rfl⟩

/-- Settles O53: every event keeps the live part of the stack alike, and the outputs are no stack slot. -/
theorem deadStackSlotsUnobservable : Obligations.DeadStackSlotsUnobservable := by
  unfold Obligations.DeadStackSlotsUnobservable
  intro n s s' t hs h
  obtain ⟨t', hrun, hlive⟩ := sameLiveStack_keptByEvents.run hs h
  exact ⟨t', hrun, hlive, by rw [hlive.1]; rfl⟩

end Sys2Proof.Machine

namespace Sys2Proof.Machine

/-! ### The memory's contract (20_memory.md R34) -/

/-- Settles O55: the three laws of a write. -/
theorem memoryReadsLastWrite : Obligations.MemoryReadsLastWrite := by
  unfold Obligations.MemoryReadsLastWrite
  intro m a v hm
  exact ⟨Memory.read_write_same hm a v, fun b hb => Memory.read_write_ne m v hb, fun ha => Memory.write_wf hm ha v⟩

theorem Memory.read_head_ne_unlisted {b : Nat} {w : Byte} {m : Memory} (hm : Memory.wf ((b, w) :: m)) :
    Memory.read ((b, w) :: m) b ≠ Config.unlistedByte := by
  obtain ⟨-, -, hw, -⟩ := Memory.wf_cons.1 hm
  rwa [Memory.read_cons, if_pos rfl]

/-- A canonical memory that gives the first listed byte of another one lists some address no higher. -/
theorem Memory.head_le_of_read_eq {b c : Nat} {w v : Byte} {m m' : Memory} (hm : Memory.wf ((b, w) :: m))
    (hm' : Memory.wf ((c, v) :: m')) (h : Memory.read ((b, w) :: m) b = Memory.read ((c, v) :: m') b) : c ≤ b := by
  obtain ⟨hc, -, -, -⟩ := Memory.wf_cons.1 hm'
  by_contra hlt
  have hbelow : ∀ e ∈ (c, v) :: m', b < e.1 := by
    rintro e he
    rcases List.mem_cons.1 he with rfl | he
    · exact Nat.lt_of_not_le hlt
    · exact (Nat.lt_of_not_le hlt).trans (hc e he)
  exact Memory.read_head_ne_unlisted hm (h.trans (Memory.read_of_below hbelow))

/-- Two canonical memories headed by the same address read alike beyond the head: there the head reads through, and
at the head's address neither tail lists a byte. -/
theorem Memory.read_tail_eq {b : Nat} {w v : Byte} {m m' : Memory} (hm : ∀ e ∈ m, b < e.1) (hm' : ∀ e ∈ m', b < e.1)
    {a : Nat} (h : Memory.read ((b, w) :: m) a = Memory.read ((b, v) :: m') a) : m.read a = m'.read a := by
  by_cases hab : a = b
  · subst hab; rw [Memory.read_of_below hm, Memory.read_of_below hm']
  · rwa [Memory.read_cons, Memory.read_cons, if_neg hab, if_neg hab] at h

/-- A canonical memory is what its reads say: the heads agree, each being no higher than the other, and so do the
tails. -/
theorem Memory.eq_of_read_eq {m m' : Memory} (hm : m.wf) (hm' : m'.wf)
    (h : ∀ a, a < Config.memSize → m.read a = m'.read a) : m = m' := by
  induction m generalizing m' with
  | nil =>
    cases m' with
    | nil => rfl
    | cons d m' =>
      obtain ⟨-, hd, -, -⟩ := Memory.wf_cons.1 hm'
      exact absurd (h d.1 hd).symm (Memory.read_head_ne_unlisted hm')
  | cons d m ih =>
    obtain ⟨b, w⟩ := d
    obtain ⟨hlow, hb, -, htail⟩ := Memory.wf_cons.1 hm
    cases m' with
    | nil => exact absurd (h b hb) (Memory.read_head_ne_unlisted hm)
    | cons e m' =>
      obtain ⟨c, v⟩ := e
      obtain ⟨hlow', hc, -, htail'⟩ := Memory.wf_cons.1 hm'
      obtain rfl : b = c :=
        le_antisymm (Memory.head_le_of_read_eq hm' hm (h c hc).symm) (Memory.head_le_of_read_eq hm hm' (h b hb))
      obtain rfl : w = v := by simpa only [Memory.read_cons, if_true] using h b hb
      rw [ih htail htail' fun a ha => Memory.read_tail_eq hlow hlow' (h a ha)]

/-- Settles O56: by induction on the list (`Memory.eq_of_read_eq`). -/
theorem canonicalMemoriesWithEqualReadsAreEqual : Obligations.CanonicalMemoriesWithEqualReadsAreEqual := by
  unfold Obligations.CanonicalMemoriesWithEqualReadsAreEqual
  exact fun m m' hm hm' h => Memory.eq_of_read_eq hm hm' h

/-! ### Fetch (R30, R36) -/

/-- Settles O7: the big-endian word of the two bytes; `PC + 2` does not wrap. -/
theorem fetchIsBigEndian : Obligations.FetchIsBigEndian := by
  unfold Obligations.FetchIsBigEndian
  intro s h
  refine ⟨_, _, fetch_ok h, wordOfBytes_toNat _ _, rfl, ?_⟩
  rw [State.writePc_pc]
  bv_omega

/-- Settles O9: the tick runs, because the machine is not stopped, and its fetch raises. -/
theorem fetchRangeFaultAtTopOfMemory : Obligations.FetchRangeFaultAtTopOfMemory := by
  unfold Obligations.FetchRangeFaultAtTopOfMemory
  intro s keys rnd rest hm hpc he
  refine ⟨fetch_error hpc, ?_⟩
  rw [step_cpuTick he, cpuTick_running (s := { s with events := rest }) keys (some rnd) hm]
  exact runInstruction_fetchRange hpc

/-! ### A store of registers, and the fetch after it (R41) -/

theorem exec_ldMemVx_inRange {s : State} {x : Reg} (h : s.i.toNat + x.val ≤ 0xFFF) :
    exec (.ldMemVx x) s = finish false (s.writeMem (s.mem.store s.i.toNat (s.regRun x))) := by
  have hr : s.checkRange (x.val + 1) = none := State.checkRange_none.2 fun k hk => by omega
  simp only [exec, execLdMemVx, hr]

theorem State.read_store_regRun {s : State} {x k : Reg} (hm : s.mem.wf) (h : s.i.toNat + x.val ≤ 0xFFF)
    (hk : k.val ≤ x.val) : (s.mem.store s.i.toNat (s.regRun x)).read (s.i.toNat + k.val) = s.readV k := by
  have hlen := s.regRun_length x
  have hfits : s.i.toNat + (s.regRun x).length ≤ Config.memSize := by simp only [Config.memSize]; omega
  have hlt : k.val < (s.regRun x).length := by omega
  rw [Memory.read_store_inside _ hm hfits _ hlt, State.regRun_get]

/-- Settles O21: the store leaves `PC`, and the two bytes fetched there are the first two of the run. -/
theorem storeIsSeenByNextFetch : Obligations.StoreIsSeenByNextFetch := by
  unfold Obligations.StoreIsSeenByNextFetch
  intro s x hm hx hi h
  have hpc : s.pc.toNat + 1 ≤ 0xFFF := by rw [← hi]; omega
  have hword : (s.mem.store s.i.toNat (s.regRun x)).wordAt s.pc.toNat = wordOfBytes (s.readV 0) (s.readV 1) := by
    rw [← hi]
    exact congrArg₂ wordOfBytes (State.read_store_regRun (k := 0) hm h (Nat.zero_le _))
      (State.read_store_regRun (k := 1) hm h hx)
  rw [exec_ldMemVx_inRange h, ← hword]
  exact ⟨_, _, finish_eq _ _, fetch_ok hpc⟩

/-! ### Accesses above 0xFFF (R35) -/

/-- An instruction that touches a byte above 0xFFF raises `MemRange` and no other fault (R121). -/
theorem raisesFault_iff_of_touchesBeyondMemory {i : Instr} {s : State} (h : touchesBeyondMemory i s) (c : FaultCause) :
    RaisesFault i s c ↔ c = .memRange := by
  cases i with
  | drw | ldB | ldMemVx | ldVxMem => exact and_iff_right h
  | _ =>
    obtain ⟨k, hk, -⟩ := h
    exact absurd hk (Nat.not_lt_zero k)

theorem exec_of_touchesBeyondMemory {i : Instr} {s : State} (h : touchesBeyondMemory i s) :
    exec i s = .next (faultedWith .memRange s) := by
  have hfault := raisesFault_iff_of_touchesBeyondMemory h
  rcases exec_cases i s with ⟨c, hc, he⟩ | ⟨u, wait, hu⟩
  · rwa [(hfault c).1 hc] at he
  · exact absurd ((hfault _).2 rfl) (hu.noFault _)

/-- Settles O40: the fault is the range test's, and `max(I, 0x1000)` is at most the address touched above 0xFFF. -/
theorem outOfRangeAccessFaults : Obligations.OutOfRangeAccessFaults := by
  unfold Obligations.OutOfRangeAccessFaults
  intro i s h
  have hinfo : ∃ k, k < bytesTouched i s ∧ s.i.toNat + k = max s.i.toNat 0x1000 := by
    obtain ⟨k, hk, hbeyond⟩ := h
    exact ⟨max s.i.toNat 0x1000 - s.i.toNat, by omega, by omega⟩
  exact ⟨exec_of_touchesBeyondMemory h, touchesBeyondMemory_iff.1 h, hinfo, fun k hk => by omega⟩

end Sys2Proof.Machine

namespace Sys2Proof

/-! ### The decoder on bytes (30_encoding.md R30, R45) -/

@[simp] theorem decode_cons_cons (hi lo : Byte) (rest : List Byte) :
    decode (hi :: lo :: rest) = .ok (decodeWord (wordOfBytes hi lo), rest) := rfl

theorem decode_encodeBytes_append (i : Instr) (rest : List Byte) :
    decode (encodeBytes i ++ rest) = .ok (decodeWord (encode i), rest) := by
  simp only [encodeBytes, List.cons_append, List.nil_append, decode_cons_cons, wordOfBytes_bytes]

/-! ### The no-operations (R51): what the decoder and the rows leave over -/

/-- The words of R51's list, family by family. -/
def IsNoOperation (w : Word) : Prop :=
  (family w = 0x0#4 ∧ fieldNNN w ≠ 0x0E0#12 ∧ fieldNNN w ≠ 0x0EE#12) ∨
  (family w = 0x5#4 ∧ fieldN w ≠ 0#4) ∨
  (family w = 0x8#4 ∧ fieldN w ∈ [0x8#4, 0x9#4, 0xA#4, 0xB#4, 0xC#4, 0xD#4, 0xF#4]) ∨
  (family w = 0x9#4 ∧ fieldN w ≠ 0#4) ∨
  (family w = 0xE#4 ∧ fieldNN w ≠ 0x9E#8 ∧ fieldNN w ≠ 0xA1#8) ∨
  (family w = 0xF#4 ∧
    fieldNN w ∉ [0x07#8, 0x0A#8, 0x15#8, 0x18#8, 0x1E#8, 0x29#8, 0x33#8, 0x55#8, 0x65#8])

/-- A branch that gives an instruction its meaning is no `DW`: the branch after it must be taken. -/
theorem ite_eq_dw_iff {c : Prop} [Decidable c] {i j : Instr} {w : Word} (hi : i ≠ .dw w) :
    (if c then i else j) = .dw w ↔ ¬ c ∧ j = .dw w := by
  split_ifs with hc
  · simp only [hi, hc, not_true_eq_false, false_and]
  · simp only [hc, not_false_eq_true, true_and]

theorem decode0_eq_dw_iff (w : Word) : decode0 w = .dw w ↔ fieldNNN w ≠ 0x0E0#12 ∧ fieldNNN w ≠ 0x0EE#12 := by
  simp [decode0, ite_eq_dw_iff]

/-- The digits of family 8 that R51 lists are those no row has. -/
theorem mem_noOperationDigits_iff (n : BitVec 4) :
    n ∈ [0x8#4, 0x9#4, 0xA#4, 0xB#4, 0xC#4, 0xD#4, 0xF#4] ↔
      n ∉ [0x0#4, 0x1#4, 0x2#4, 0x3#4, 0x4#4, 0x5#4, 0x6#4, 0x7#4, 0xE#4] := by
  revert n; decide

theorem decode8_eq_dw_iff (w : Word) :
    decode8 w = .dw w ↔ fieldN w ∈ [0x8#4, 0x9#4, 0xA#4, 0xB#4, 0xC#4, 0xD#4, 0xF#4] := by
  rw [mem_noOperationDigits_iff]
  simp [decode8, ite_eq_dw_iff]

theorem decodeE_eq_dw_iff (w : Word) : decodeE w = .dw w ↔ fieldNN w ≠ 0x9E#8 ∧ fieldNN w ≠ 0xA1#8 := by
  simp [decodeE, ite_eq_dw_iff]

theorem decodeF_eq_dw_iff (w : Word) :
    decodeF w = .dw w ↔
      fieldNN w ∉ [0x07#8, 0x0A#8, 0x15#8, 0x18#8, 0x1E#8, 0x29#8, 0x33#8, 0x55#8, 0x65#8] := by
  simp [decodeF, ite_eq_dw_iff]

/-- R51, by the family; in each family with a discriminant the branch `.dw w` is left when no other is taken. -/
theorem decodeWord_eq_dw_iff (w : Word) : decodeWord w = .dw w ↔ IsNoOperation w := by
  unfold IsNoOperation
  rcases family_cases w with h | h | h | h | h | h | h | h | h | h | h | h | h | h | h | h <;>
    simp [decodeWord, h, decode0_eq_dw_iff, decode8_eq_dw_iff, decodeE_eq_dw_iff, decodeF_eq_dw_iff]

/-- Row by row, then by the family: the 34 rows leave exactly R51's list over. -/
theorem matchesNoRow_iff (w : Word) : matchesNoRow w = true ↔ IsNoOperation w := by
  unfold IsNoOperation
  rw [mem_noOperationDigits_iff]
  simp only [matchesNoRow, List.all_eq_true, forall_row_iff, Row.fits, Bool.not_eq_true', beq_eq_false_iff_ne, ne_eq,
    masked_00E0, masked_00EE, masked_1000, masked_2000, masked_3000, masked_4000, masked_5000, masked_6000,
    masked_7000, masked_8000, masked_8001, masked_8002, masked_8003, masked_8004, masked_8005, masked_8006,
    masked_8007, masked_800E, masked_9000, masked_A000, masked_B000, masked_C000, masked_D000, masked_E09E,
    masked_E0A1, masked_F007, masked_F00A, masked_F015, masked_F018, masked_F01E, masked_F029, masked_F033,
    masked_F055, masked_F065]
  rcases family_cases w with h | h | h | h | h | h | h | h | h | h | h | h | h | h | h | h <;> simp [h]

/-! ### Decoding an encoded instruction (R50) -/

/-- By the format: the encoder's fields are read back, and with them the discriminant; the word of a `DW` is one of
R51's list. -/
theorem decodeWord_encode {i : Instr} (h : i.wf = true) : decodeWord (encode i) = i := by
  cases i with
  | cls | ret => rfl
  | jp | call | ldI | jpV0 => simp [encode, decodeWord]
  | seImm | sneImm | ldImm | addImm | rnd => simp [encode, decodeWord]
  | seReg | sneReg | drw => simp [encode, decodeWord]
  | ldReg | or | and | xor | addReg | sub | shr | subn | shl => simp [encode, decodeWord, decode8]
  | skp | sknp => simp [encode, decodeWord, decodeE]
  | ldVxDT | ldVxK | ldDTVx | ldSTVx | addI | ldF | ldB | ldMemVx | ldVxMem => simp [encode, decodeWord, decodeF]
  | dw w => exact (decodeWord_eq_dw_iff w).2 ((matchesNoRow_iff w).1 h)

/-- Settles O3: the two bytes are the word again, and the word decodes to the instruction (`decodeWord_encode`). -/
theorem encodeDecodeRoundTrip : Obligations.EncodeDecodeRoundTrip := by
  unfold Obligations.EncodeDecodeRoundTrip
  intro i rest h
  rw [decode_encodeBytes_append, decodeWord_encode h]

/-- Settles O6: `decodeWord_eq_dw_iff`, family by family. -/
theorem noOperationWords : Obligations.NoOperationWords := by
  unfold Obligations.NoOperationWords
  exact decodeWord_eq_dw_iff

/-! ### A word from the fields its format names (R46) -/

theorem formatNNN_of_fields {w : Word} {f : BitVec 4} (h : family w = f) : formatNNN f (fieldNNN w) = w := by
  rw [word_eq_iff, family_formatNNN, fieldNNN_formatNNN]
  exact ⟨h.symm, rfl⟩

theorem formatXNN_append (f : BitVec 4) (x : Reg) (c d : BitVec 4) :
    formatXNN f x (c ++ d) = digits f (regBits x) c d :=
  (BitVec.append_assoc (x₁ := f ++ regBits x) (x₂ := c) (x₃ := d)).symm

theorem formatXNN_of_fields {w : Word} {f : BitVec 4} {nn : Byte} (h : family w = f) (hnn : fieldNN w = nn) :
    formatXNN f (fieldX w) nn = w := by
  rw [← h, ← hnn, fieldNN_eq, formatXNN_append]
  exact digits_fields w

theorem formatXYN_of_fields {w : Word} {f n : BitVec 4} (h : family w = f) (hn : fieldN w = n) :
    formatXYN f (fieldX w) (fieldY w) n = w := by
  rw [← h, ← hn]
  exact digits_fields w

theorem and_clearY (w : Word) : w &&& 0xFF0F#16 = digits (family w) (xBits w) 0#4 (fieldN w) := by
  have hz (z : BitVec 4) : z &&& 0xF#4 = z ∧ z &&& 0#4 = 0#4 := by revert z; decide
  rw [show (0xFF0F#16 : Word) = digits 0xF#4 0xF#4 0#4 0xF#4 by decide, and_digits_eq]
  simp only [hz, and_self]

/-- The mask 0xFF0F clears the second register's digit. -/
theorem formatXYN_zero_of_fields {w : Word} {f n : BitVec 4} (h : family w = f) (hn : fieldN w = n) :
    formatXYN f (fieldX w) 0 n = w &&& 0xFF0F#16 := by
  rw [and_clearY, h, hn]; rfl

/-! ### Encoding a decoded word (R50, R54) -/

/-- One branch of the decoder at a time. -/
theorem encode_ite {c : Prop} [Decidable c] {i j : Instr} {w : Word} (hi : c → encode i = w) (hj : encode j = w) :
    encode (if c then i else j) = w := by
  split_ifs with hc
  · exact hi hc
  · exact hj

theorem encode_decode0 {w : Word} (h : family w = 0x0#4) : encode (decode0 w) = w :=
  encode_ite (fun hn => (word_eq_iff _ w).2 ⟨h.symm, hn.symm⟩) <|
    encode_ite (fun hn => (word_eq_iff _ w).2 ⟨h.symm, hn.symm⟩) rfl

/-- `8xy6` and `8xyE`, whose `y` bits no operand carries. -/
def IsShiftWord (w : Word) : Prop := family w = 0x8#4 ∧ (fieldN w = 0x6#4 ∨ fieldN w = 0xE#4)

theorem isShiftWord_iff (w : Word) :
    IsShiftWord w ↔ w &&& 0xF00F#16 = 0x8006#16 ∨ w &&& 0xF00F#16 = 0x800E#16 := by
  rw [masked_8006, masked_800E, IsShiftWord, and_or_left]

theorem decodeWord_8xy6 {w : Word} (h : family w = 0x8#4) (hn : fieldN w = 0x6#4) :
    decodeWord w = .shr (fieldX w) := by
  simp [decodeWord, decode8, h, hn]

theorem decodeWord_8xyE {w : Word} (h : family w = 0x8#4) (hn : fieldN w = 0xE#4) :
    decodeWord w = .shl (fieldX w) := by
  simp [decodeWord, decode8, h, hn]

theorem encode_decodeWord_shift {w : Word} (h : IsShiftWord w) : encode (decodeWord w) = w &&& 0xFF0F#16 := by
  obtain ⟨h8, hn | hn⟩ := h
  · rw [decodeWord_8xy6 h8 hn]; exact formatXYN_zero_of_fields h8 hn
  · rw [decodeWord_8xyE h8 hn]; exact formatXYN_zero_of_fields h8 hn

theorem encode_decode8 {w : Word} (h : family w = 0x8#4) (h6 : fieldN w ≠ 0x6#4) (hE : fieldN w ≠ 0xE#4) :
    encode (decode8 w) = w := by
  unfold decode8
  rw [if_neg h6, if_neg hE]
  iterate 7 refine encode_ite (formatXYN_of_fields h) ?_
  rfl

theorem encode_decodeE {w : Word} (h : family w = 0xE#4) : encode (decodeE w) = w := by
  iterate 2 refine encode_ite (formatXNN_of_fields h) ?_
  rfl

theorem encode_decodeF {w : Word} (h : family w = 0xF#4) : encode (decodeF w) = w := by
  iterate 9 refine encode_ite (formatXNN_of_fields h) ?_
  rfl

/-- Every other word, by its family: the format puts the fields back where decoding took them from. -/
theorem encode_decodeWord {w : Word} (hw : ¬ IsShiftWord w) : encode (decodeWord w) = w := by
  rcases family_cases w with h | h | h | h | h | h | h | h | h | h | h | h | h | h | h | h <;>
    simp only [decodeWord, h]
  · exact encode_decode0 h
  · exact formatNNN_of_fields h
  · exact formatNNN_of_fields h
  · exact formatXNN_of_fields h rfl
  · exact formatXNN_of_fields h rfl
  · exact encode_ite (formatXYN_of_fields h) rfl
  · exact formatXNN_of_fields h rfl
  · exact formatXNN_of_fields h rfl
  · exact encode_decode8 h (fun hn => hw ⟨h, .inl hn⟩) (fun hn => hw ⟨h, .inr hn⟩)
  · exact encode_ite (formatXYN_of_fields h) rfl
  · exact formatNNN_of_fields h
  · exact formatNNN_of_fields h
  · exact formatXNN_of_fields h rfl
  · exact formatXYN_of_fields h rfl
  · exact encode_decodeE h
  · exact encode_decodeF h

/-- The no-operation carries the word it was decoded from. -/
theorem eq_of_decodeWord_eq_dw {w v : Word} (h : decodeWord w = .dw v) : v = w := by
  have hw : ¬ IsShiftWord w := by
    rintro ⟨h8, hn | hn⟩
    · rw [decodeWord_8xy6 h8 hn] at h; cases h
    · rw [decodeWord_8xyE h8 hn] at h; cases h
  have henc := encode_decodeWord hw
  rwa [h] at henc

theorem matchesNoRow_of_decodeWord_eq_dw {w v : Word} (h : decodeWord w = .dw v) : matchesNoRow w = true := by
  obtain rfl := eq_of_decodeWord_eq_dw h
  exact (matchesNoRow_iff v).2 ((decodeWord_eq_dw_iff v).1 h)

theorem decodeWord_wf (w : Word) : (decodeWord w).wf = true := by
  cases h : decodeWord w with
  | dw v =>
    obtain rfl := eq_of_decodeWord_eq_dw h
    exact matchesNoRow_of_decodeWord_eq_dw h
  | _ => rfl

/-- Settles O4: a shift word loses its `y` digit, and every other word is put together from its fields again. -/
theorem decodedWordReencodes : Obligations.DecodedWordReencodes := by
  unfold Obligations.DecodedWordReencodes
  intro w
  refine ⟨decodeWord_wf w, ?_⟩
  split_ifs with h
  · exact encode_decodeWord_shift ((isShiftWord_iff w).2 h)
  · exact encode_decodeWord fun hw => h ((isShiftWord_iff w).1 hw)

end Sys2Proof

namespace Sys2Proof.Laws.EncodedRow

/-- The per-instruction statements, for every instruction. -/
theorem statement_all (i : Instr) : Statement i := by
  cases i
  exacts [cls, ret, jp _, call _, seImm _ _, sneImm _ _, seReg _ _, ldImm _ _, addImm _ _, ldReg _ _, or _ _, and _ _,
    xor _ _, addReg _ _, sub _ _, shr _, subn _ _, shl _, sneReg _ _, ldI _, jpV0 _, rnd _ _, drw _ _ _, skp _, sknp _,
    ldVxDT _, ldVxK _, ldDTVx _, ldSTVx _, addI _, ldF _, ldB _, ldMemVx _, ldVxMem _, dw _]

end Sys2Proof.Laws.EncodedRow

namespace Sys2Proof

/-! ### The rows of the opcode table (R49) -/

theorem Row.fits_iff (r : Row) (w : Word) : r.fits w = true ↔ w &&& r.mask = r.value := beq_iff_eq

/-- Two rows of the table differ in a bit that both their masks ask for. -/
theorem row_eq_of_matches_agree :
    ∀ r ∈ opcodeTable, ∀ r' ∈ opcodeTable, r.value &&& r'.mask = r'.value &&& r.mask → r = r' := by
  decide

theorem row_eq_of_fits {r r' : Row} (hr : r ∈ opcodeTable) (hr' : r' ∈ opcodeTable) {w : Word}
    (h : w &&& r.mask = r.value) (h' : w &&& r'.mask = r'.value) : r = r' := by
  apply row_eq_of_matches_agree r hr r' hr'
  rw [← h, ← h', BitVec.and_assoc, BitVec.and_assoc, BitVec.and_comm r.mask]

theorem wf_of_row {i : Instr} {r : Row} (h : i.row = some r) : i.wf = true := by
  cases i with
  | dw w => cases h
  | _ => rfl

theorem exists_eq_dw_of_row_eq_none {i : Instr} (h : i.row = none) : ∃ w, i = .dw w := by
  cases i with
  | dw w => exact ⟨w, rfl⟩
  | _ => cases h

theorem encode_fits_row {i : Instr} {r : Row} (h : i.row = some r) : r.fits (encode i) = true := by
  have hi := Laws.EncodedRow.statement_all i (wf_of_row h)
  rwa [h] at hi

theorem row_mem {i : Instr} {r : Row} (h : i.row = some r) : r ∈ opcodeTable := List.mem_of_getElem? h

theorem fits_row_decodeWord {w : Word} {r : Row} (h : (decodeWord w).row = some r) : r.fits w = true := by
  by_cases hw : IsShiftWord w
  · obtain ⟨h8, hn | hn⟩ := hw
    · rw [decodeWord_8xy6 h8 hn] at h; cases h
      exact (Row.fits_iff _ w).2 ((masked_8006 w).2 ⟨h8, hn⟩)
    · rw [decodeWord_8xyE h8 hn] at h; cases h
      exact (Row.fits_iff _ w).2 ((masked_800E w).2 ⟨h8, hn⟩)
  · simpa only [encode_decodeWord hw] using encode_fits_row h

theorem not_fits_of_matchesNoRow {w : Word} (h : matchesNoRow w = true) {r : Row} (hr : r ∈ opcodeTable) :
    r.fits w = false := by
  simpa using List.all_eq_true.1 h r hr

/-- The row of the decoded instruction fits too, and no other row of the table does. -/
theorem row_decodeWord_of_fits {w : Word} {r : Row} (hr : r ∈ opcodeTable) (h : r.fits w = true) :
    (decodeWord w).row = some r := by
  cases hrow : (decodeWord w).row with
  | none =>
    obtain ⟨v, hv⟩ := exists_eq_dw_of_row_eq_none hrow
    rw [not_fits_of_matchesNoRow (matchesNoRow_of_decodeWord_eq_dw hv) hr] at h
    cases h
  | some r' =>
    rw [row_eq_of_fits hr (row_mem hrow) ((Row.fits_iff r w).1 h) ((Row.fits_iff r' w).1 (fits_row_decodeWord hrow))]

/-- Settles O5: the decoded instruction's row fits the word, and two rows that fit one word are the same. -/
theorem decoderIsMatchAndMask : Obligations.DecoderIsMatchAndMask := by
  unfold Obligations.DecoderIsMatchAndMask
  refine ⟨fun r hr w => ?_, fun r hr r' hr' w => row_eq_of_fits hr hr'⟩
  rw [← Row.fits_iff]
  exact ⟨row_decodeWord_of_fits hr, fits_row_decodeWord⟩

/-- Settles O1: by evaluation. -/
theorem specWordsDecode : Obligations.SpecWordsDecode := by
  unfold Obligations.SpecWordsDecode
  exact ⟨rfl, rfl, rfl, rfl, rfl, rfl, rfl, rfl⟩

end Sys2Proof

namespace Sys2Proof.Machine

/-! ### Every step answers a next state (R63, R122) -/

theorem exec_next (i : Instr) (s : State) : ∃ t, exec i s = .next t := by
  rcases exec_cases i s with ⟨c, -, he⟩ | ⟨u, wait, hu⟩
  · exact ⟨_, he⟩
  · exact ⟨_, hu.result.trans (finish_eq wait u)⟩

theorem runInstruction_next (s : State) : ∃ t, runInstruction s = .next t := by
  rcases Nat.lt_or_ge 0xFFF (s.pc.toNat + 1) with h | h
  · exact ⟨_, runInstruction_fetchRange h⟩
  · rw [runInstruction_ok h]; exact exec_next _ _

theorem cpuTick_next (keys : KeyLevels) (rnd : Option Byte) (s : State) : ∃ t, cpuTick keys rnd s = .next t := by
  cases hm : s.mode.stopped
  · rw [cpuTick_running keys rnd hm]; exact runInstruction_next _
  · exact ⟨s, cpuTick_stopped keys rnd hm⟩

theorem step_next (s : State) : ∃ t, step s = .next t := by
  cases he : s.events with
  | nil => rw [step_noEvent he]; exact cpuTick_next _ _ _
  | cons e rest =>
    cases e with
    | cpuTick keys rnd => rw [step_cpuTick he]; exact cpuTick_next _ _ _
    | timerTick => exact ⟨_, step_timerTick he⟩
    | reset => exact ⟨_, step_reset he⟩

/-- Settles O10: by the event at the head of the list; an instruction completes or raises its fault. -/
theorem everyStepAnswersNextState : Obligations.EveryStepAnswersNextState := by
  unfold Obligations.EveryStepAnswersNextState
  exact ⟨exec_next, step_next⟩

end Sys2Proof.Machine

namespace Sys2Proof

/-! ### The fields of a word (30_encoding.md R46, 40_cycle.md R62) -/

theorem toNat_extractLsb'_word (w : Word) (start len : Nat) :
    (w.extractLsb' start len).toNat = w.toNat / 2 ^ start % 2 ^ len := by
  rw [BitVec.extractLsb'_toNat, Nat.shiftRight_eq_div_pow]

/-- Settles O2: each field is the word divided down to its lowest bit, modulo its width. -/
theorem decodeCutsSixFields : Obligations.DecodeCutsSixFields := by
  unfold Obligations.DecodeCutsSixFields
  intro w
  have hfamily : (family w).toNat = w.toNat / 4096 := by
    have := w.isLt
    rw [family, toNat_extractLsb'_word]
    omega
  have hlow (len : Nat) : (w.extractLsb' 0 len).toNat = w.toNat % 2 ^ len := by
    rw [toNat_extractLsb'_word, pow_zero, Nat.div_one]
  exact ⟨hfamily, toNat_extractLsb'_word w 8 4, toNat_extractLsb'_word w 4 4, hlow 4, hlow 8, hlow 12⟩

end Sys2Proof

namespace Sys2Proof.Machine

/-! ### A `cpu_tick` of a machine that is not stopped (40_cycle.md R60 to R63) -/

section
variable {s : State} (hm : s.mode.stopped = false) (hpc : s.pc.toNat + 1 ≤ 0xFFF)
include hm hpc

theorem step_cpuTick_exec {keys : KeyLevels} {rnd : Byte} {rest : List Event}
    (he : s.events = .cpuTick keys rnd :: rest) :
    step s = exec (decodeWord (s.mem.wordAt s.pc.toNat))
      { s with events := rest, keys := keys, rnd := some rnd, pc := s.pc + 2 } := by
  rw [step_cpuTick he, cpuTick_running (s := { s with events := rest }) keys (some rnd) hm]
  exact runInstruction_ok hpc

theorem step_noEvent_exec (he : s.events = []) :
    step s = exec (decodeWord (s.mem.wordAt s.pc.toNat))
      { s with draws := s.draws + 1, rnd := none, pc := s.pc + 2 } := by
  rw [step_noEvent he, cpuTick_running (s := { s with draws := s.draws + 1 }) s.keys none hm]
  exact runInstruction_ok hpc

end

/-- Settles O8: by the next event, listed or not; the two bytes at `PC` are the word fetched. -/
theorem stepRunsDecodedInstruction : Obligations.StepRunsDecodedInstruction := by
  unfold Obligations.StepRunsDecodedInstruction
  intro s i hm hpc hi
  obtain rfl : decodeWord (s.mem.wordAt s.pc.toNat) = i := by
    rw [decode_cons_cons] at hi
    cases hi
    rfl
  exact ⟨fun keys rnd rest he => step_cpuTick_exec hm hpc he, step_noEvent_exec hm hpc⟩

/-! ### The end of an instruction (40_cycle.md R64, R65) -/

/-- A frame says nothing of `MODE`, so the mode update of R65 keeps it. -/
theorem Frame.writeMode {w : Touched} {s u : State} (h : Frame w s u) (m : Mode) : Frame w s (u.writeMode m) :=
  ⟨h.regs, h.pc, h.i, h.stack, h.sp, h.dt, h.st, h.cause, h.fb, h.presents, h.mem, h.inputs⟩

theorem decodeWord_of_matchesNoRow {w : Word} (h : matchesNoRow w = true) : decodeWord w = .dw w :=
  (decodeWord_eq_dw_iff w).2 ((matchesNoRow_iff w).1 h)

theorem exec_dw (w : Word) (s : State) : exec (.dw w) s = finish false s := rfl

/-- Settles O28: a `DW` is the mode update of R65 and nothing more. -/
theorem noOperationChangesNothing : Obligations.NoOperationChangesNothing := by
  unfold Obligations.NoOperationChangesNothing
  intro s w
  have hexec := (exec_dw w s).trans (finish_eq false s)
  exact ⟨decodeWord_of_matchesNoRow, _, hexec, modeFromPc_finish (finish_eq false s), (Frame.refl {} s).writeMode _⟩

/-- Settles O50: an instruction that raises nothing completes, and its mode is `modeAfter` of its new `PC`. -/
theorem modeAfterEveryInstruction : Obligations.ModeAfterEveryInstruction := by
  unfold Obligations.ModeAfterEveryInstruction
  intro i s hnone
  rcases exec_cases i s with ⟨c, hc, -⟩ | ⟨u, wait, hu⟩
  · exact absurd hc (hnone c)
  refine ⟨_, hu.result.trans (finish_eq wait u), hu.frame.cause (touches_cause i s), modeAfter_halted wait u.pc, ?_,
    modeAfter_ne_faulted wait u.pc⟩
  rw [← hu.waits]
  exact modeAfter_keyWait wait u.pc

/-! ### The stopped machine (40_cycle.md R66) -/

theorem step_stopped {s : State} (hm : s.mode.stopped = true) (hr : Event.reset ∉ s.events) :
    ∃ d, step s = .next { s with events := s.events.tail, draws := d } := by
  cases he : s.events with
  | nil =>
    refine ⟨s.draws + 1, ?_⟩
    simpa only [he, List.tail_nil] using (step_noEvent he).trans (cpuTick_stopped _ _ hm)
  | cons e rest =>
    refine ⟨s.draws, ?_⟩
    cases e with
    | cpuTick keys rnd => exact (step_cpuTick he).trans (cpuTick_stopped keys (some rnd) hm)
    | timerTick => exact (step_timerTick he).trans (congrArg _ (timerTick_stopped hm))
    | reset => exact absurd (he ▸ List.mem_cons_self) hr

/-- Settles O16: by induction on the number of events; each only comes off the list (`step_stopped`). -/
theorem stoppedMachineIgnoresTicks : Obligations.StoppedMachineIgnoresTicks := by
  unfold Obligations.StoppedMachineIgnoresTicks
  intro n
  induction n with
  | zero => exact fun s _ _ => ⟨s, rfl, rfl⟩
  | succ n ih =>
    intro s hm hr
    obtain ⟨d, hd⟩ := step_stopped hm hr
    have htail : Event.reset ∉ s.events.tail := fun h => hr (List.mem_of_mem_tail h)
    obtain ⟨t, hrun, ht⟩ := ih { s with events := s.events.tail, draws := d } hm htail
    refine ⟨t, (run_next n hd).trans hrun, ht.trans ?_⟩
    rw [List.drop_tail]

/-! ### Waiting for a key (40_cycle.md R67, 45_timer_keypad.md R116) -/

/-- The machine runs, and its next `cpu_tick` executes an `Fx0A`. -/
structure AtFx0A (x : Reg) (s : State) : Prop where
  notStopped : s.mode.stopped = false
  inRange : s.pc.toNat + 1 ≤ 0xFFF
  word : decodeWord (s.mem.wordAt s.pc.toNat) = .ldVxK x

/-- What the events `es`, all of them `timer_tick`s or keyless `cpu_tick`s, make of a machine at an `Fx0A`. -/
structure WaitedFor (es rest : List Event) (s t : State) : Prop where
  unchanged : t = { s with events := rest, dt := t.dt, st := t.st, mode := t.mode, keys := t.keys, rnd := t.rnd }
  waiting : (∃ rnd, Event.cpuTick 0 rnd ∈ es) → t.mode = .keyWait
  sameMode : (∀ rnd, Event.cpuTick 0 rnd ∉ es) → t.mode = s.mode
  dt : t.dt.toNat = s.dt.toNat - es.count .timerTick
  st : t.st.toNat = s.st.toNat - es.count .timerTick

theorem exec_ldVxK_noKey {x : Reg} {s : State} (h : s.keys = 0) :
    exec (.ldVxK x) s = finish true (s.writePc (s.pc - 2)) := by
  simp only [exec, execLdVxK, State.lowestKey_none.2 h]
  rfl

section
variable {x : Reg} {s t : State} {es rest : List Event}

/-- A `cpu_tick` without a key puts `PC` back at the `Fx0A` and leaves the machine in `KEY_WAIT`. -/
theorem AtFx0A.step_cpuTick {rnd : Byte} (h : AtFx0A x s) (he : s.events = .cpuTick 0 rnd :: rest) :
    step s = .next { s with events := rest, mode := .keyWait, keys := 0, rnd := some rnd } := by
  have hlow : s.pc.toNat < 0x1000 := (Nat.le_of_succ_le h.inRange).trans_lt (by decide)
  have hmode : modeAfter true s.pc = .keyWait := (modeAfter_keyWait true s.pc).2 ⟨hlow, rfl⟩
  rw [step_cpuTick_exec h.notStopped h.inRange he, h.word, exec_ldVxK_noKey rfl, finish_eq]
  simp only [State.writePc, State.writeMode, BitVec.add_sub_cancel, hmode]

theorem AtFx0A.step_timerTick (h : AtFx0A x s) (he : s.events = .timerTick :: rest) :
    step s = .next { s with events := rest, dt := countDown s.dt, st := countDown s.st } := by
  rw [Machine.step_timerTick he, timerTick_running (s := { s with events := rest }) h.notStopped]

theorem WaitedFor.nil (he : s.events = rest) : WaitedFor [] rest s s where
  unchanged := by rw [← he]
  waiting := by simp
  sameMode := fun _ => rfl
  dt := rfl
  st := rfl

theorem count_timerTick_cpuTick_cons (keys : KeyLevels) (rnd : Byte) (es : List Event) :
    (Event.cpuTick keys rnd :: es).count .timerTick = es.count .timerTick :=
  List.count_cons_of_ne Event.noConfusion

theorem WaitedFor.cpuTick_cons {rnd : Byte} {es' : List Event}
    (h : WaitedFor es rest { s with events := es', mode := .keyWait, keys := 0, rnd := some rnd } t) :
    WaitedFor (.cpuTick 0 rnd :: es) rest s t where
  unchanged := h.unchanged
  waiting := fun _ => by
    by_cases hes : ∃ rnd, Event.cpuTick 0 rnd ∈ es
    · exact h.waiting hes
    · exact h.sameMode (not_exists.1 hes)
  sameMode := fun hno => absurd List.mem_cons_self (hno rnd)
  dt := by rw [h.dt, count_timerTick_cpuTick_cons]
  st := by rw [h.st, count_timerTick_cpuTick_cons]

theorem countDown_toNat_sub (b : Byte) (n : Nat) : (countDown b).toNat - n = b.toNat - (n + 1) := by
  rw [countDown_toNat, Nat.sub_sub, Nat.add_comm]

theorem WaitedFor.timerTick_cons {es' : List Event}
    (h : WaitedFor es rest { s with events := es', dt := countDown s.dt, st := countDown s.st } t) :
    WaitedFor (.timerTick :: es) rest s t where
  unchanged := h.unchanged
  waiting := fun hes => h.waiting (by simpa using hes)
  sameMode := fun hno => h.sameMode (by simpa using hno)
  dt := by rw [h.dt, countDown_toNat_sub, List.count_cons_self]
  st := by rw [h.st, countDown_toNat_sub, List.count_cons_self]

/-- By induction on the events: each leaves the machine at the `Fx0A`. -/
theorem AtFx0A.run (h : AtFx0A x s) (he : s.events = es ++ rest)
    (hes : ∀ e ∈ es, e = .timerTick ∨ ∃ rnd, e = .cpuTick 0 rnd) :
    ∃ t, core.run es.length s = .next t ∧ WaitedFor es rest s t := by
  induction es generalizing s with
  | nil => exact ⟨s, rfl, .nil he⟩
  | cons e es ih =>
    obtain ⟨hhead, htail⟩ := List.forall_mem_cons.1 hes
    rcases hhead with rfl | ⟨rnd, rfl⟩
    · obtain ⟨t, hrun, ht⟩ := ih (s := { s with events := es ++ rest, dt := countDown s.dt, st := countDown s.st })
        ⟨h.notStopped, h.inRange, h.word⟩ rfl htail
      exact ⟨t, (run_next _ (h.step_timerTick he)).trans hrun, ht.timerTick_cons⟩
    · obtain ⟨t, hrun, ht⟩ := ih (s := { s with events := es ++ rest, mode := .keyWait, keys := 0, rnd := some rnd })
        ⟨rfl, h.inRange, h.word⟩ rfl htail
      exact ⟨t, (run_next _ (h.step_cpuTick he)).trans hrun, ht.cpuTick_cons⟩

end

/-- Settles O20: the hypotheses say that the machine is at an `Fx0A`, and `AtFx0A.run` gives every clause. -/
theorem keyWaitLastsWhileNoKey : Obligations.KeyWaitLastsWhileNoKey := by
  unfold Obligations.KeyWaitLastsWhileNoKey
  intro s x es rest hm hpc hword he hes
  obtain ⟨t, hrun, hunchanged, hwaiting, hsame, hdt, hst⟩ := AtFx0A.run ⟨hm, hpc, hword⟩ he hes
  exact ⟨t, hrun, hunchanged, hwaiting, hsame, hdt, hst⟩

/-! ### The word placed for the next fetch (log entry 6) -/

theorem tickFirst_cases (es : List Event) :
    tickFirst es = [] ∨ ∃ keys rnd rest, tickFirst es = .cpuTick keys rnd :: rest := by
  induction es with
  | nil => exact .inl rfl
  | cons e es ih =>
    cases e with
    | cpuTick keys rnd => exact .inr ⟨keys, rnd, es, rfl⟩
    | timerTick | reset => exact ih

@[simp] theorem State.readyToFetch_mem (s : State) : s.readyToFetch.mem = s.mem := by
  unfold State.readyToFetch
  dsimp only
  split_ifs <;> rfl

@[simp] theorem State.readyToFetch_events (s : State) : s.readyToFetch.events = tickFirst s.events := by
  unfold State.readyToFetch
  dsimp only
  split_ifs <;> rfl

/-- A stopped machine is put in `RUNNING`, and the mode is left alone otherwise. -/
theorem State.readyToFetch_notStopped (s : State) : s.readyToFetch.mode.stopped = false := by
  unfold State.readyToFetch
  dsimp only
  split_ifs with hm
  exacts [rfl, rfl, Bool.eq_false_iff.2 hm, Bool.eq_false_iff.2 hm]

/-- A `PC` whose second byte is outside the memory is put at the reset vector. -/
theorem State.readyToFetch_inRange (s : State) : s.readyToFetch.pc.toNat + 1 ≤ 0xFFF := by
  have hreset : Config.pcReset.toNat + 1 ≤ 0xFFF := by decide
  unfold State.readyToFetch
  dsimp only
  split_ifs with hm hout hout
  exacts [hreset, Nat.le_of_not_lt hout, hreset, Nat.le_of_not_lt hout]

/-- The next event of `s` is a `cpu_tick`, listed or not; whichever it is, only the inputs sampled differ. -/
theorem step_exec_of_tickFirst {s : State} {es : List Event} (hm : s.mode.stopped = false)
    (hpc : s.pc.toNat + 1 ≤ 0xFFF) (he : s.events = tickFirst es) :
    ∃ u : State, step s = exec (decodeWord (s.mem.wordAt s.pc.toNat)) u ∧
      u = { s with pc := s.pc + 2, events := u.events, keys := u.keys, rnd := u.rnd, draws := u.draws } := by
  rcases tickFirst_cases es with h | ⟨keys, rnd, rest, h⟩
  · exact ⟨_, step_noEvent_exec hm hpc (he.trans h), rfl⟩
  · exact ⟨_, step_cpuTick_exec hm hpc (he.trans h), rfl⟩

theorem wordBytes_fit {a : Nat} (ha : a + 1 ≤ 0xFFF) (w : Word) :
    a + [highByte w, lowByte w].length ≤ Config.memSize := by
  simp only [List.length_cons, List.length_nil, Config.memSize]
  omega

/-- A word's two bytes, stored at `a`, are the word at `a` (R30). -/
theorem Memory.wordAt_store {m : Memory} (hm : m.wf) {a : Nat} (ha : a + 1 ≤ 0xFFF) (w : Word) :
    (m.store a [highByte w, lowByte w]).wordAt a = w := by
  have hread := Memory.read_store_inside [highByte w, lowByte w] hm (wordBytes_fit ha w)
  calc (m.store a [highByte w, lowByte w]).wordAt a
    _ = wordOfBytes (highByte w) (lowByte w) := congrArg₂ wordOfBytes (hread 0 (by simp)) (hread 1 (by simp))
    _ = w := wordOfBytes_bytes w

theorem tableWord_16 {w : Nat} (h : w < 0x10000) : tableWord 16 w = BitVec.ofNat 16 w := by
  rw [tableWord, Nat.mod_eq_of_lt (show w < 2 ^ 16 from h)]

/-- Settles O58: the placed word is the one fetched from the state made ready, and the next event is a `cpu_tick`. -/
theorem placedWordIsExecutedNext : Obligations.PlacedWordIsExecutedNext := by
  unfold Obligations.PlacedWordIsExecutedNext
  intro s w hmem hw
  have hstopped : (s.withFetchWord 16 w).mode.stopped = false := s.readyToFetch_notStopped
  have hpc : (s.withFetchWord 16 w).pc.toNat + 1 ≤ 0xFFF := s.readyToFetch_inRange
  have hready : s.readyToFetch.mem.wf := s.readyToFetch_mem.symm ▸ hmem
  have hword : (s.withFetchWord 16 w).mem.wordAt (s.withFetchWord 16 w).pc.toNat = BitVec.ofNat 16 w :=
    (Memory.wordAt_store hready hpc _).trans (tableWord_16 hw)
  refine ⟨hstopped, Memory.store_wf _ hready (wordBytes_fit hpc _), ?_⟩
  rw [← hword]
  exact step_exec_of_tickFirst hstopped hpc s.readyToFetch_events

end Sys2Proof.Machine

namespace Sys2Proof.Machine

/-! ### Control flow (41_control_flow.md R71 to R78)

Each instruction here that raises nothing completes, so its `PC` is `nextPc`, its mode is R65's and its frame is what it
`touches`; what is left for each is the value of `nextPc`, and for `CALL` and `RET` the depth. -/

/-- An instruction that raises nothing, and is not the `Fx0A` that may wait, completes without waiting. -/
theorem exists_completes {i : Instr} {s : State} (hnone : ∀ c, ¬ RaisesFault i s c) (hkey : ∀ x, i ≠ .ldVxK x) :
    ∃ u, Completes i s u false := by
  rcases exec_cases i s with ⟨c, hc, -⟩ | ⟨u, wait, hu⟩
  · exact absurd hc (hnone c)
  · cases wait with
    | false => exact ⟨u, hu⟩
    | true =>
      obtain ⟨⟨x, hx⟩, -⟩ := hu.waits.1 rfl
      exact absurd hx (hkey x)

theorem Completes.answer {i : Instr} {s u : State} (h : Completes i s u false) :
    exec i s = .next (u.writeMode (modeAfter false u.pc)) :=
  h.result.trans (finish_eq false u)

theorem modeFromPc_writeMode (u : State) : ModeFromPc (u.writeMode (modeAfter false u.pc)) :=
  modeFromPc_finish (finish_eq false u)

/-- The parts of `exists_completes` that no instruction has to add to: the new `PC`, the mode and the frame. -/
theorem exec_answers {i : Instr} {s : State} (hnone : ∀ c, ¬ RaisesFault i s c) (hkey : ∀ x, i ≠ .ldVxK x) :
    ∃ t, exec i s = .next t ∧ t.pc = nextPc i s ∧ ModeFromPc t ∧ Frame (touches i s) s t := by
  obtain ⟨u, hu⟩ := exists_completes hnone hkey
  exact ⟨_, hu.answer, hu.pc, modeFromPc_writeMode u, hu.frame.writeMode _⟩

theorem zext12_toNat (nnn : Addr12) : (zext12 nnn).toNat = nnn.toNat :=
  BitVec.toNat_setWidth_of_le (by decide)

theorem zext8_toNat (b : Byte) : (zext8 b).toNat = b.toNat :=
  BitVec.toNat_setWidth_of_le (by decide)

/-- R74: the sum of a 12-bit address and a byte fits in `PC`. -/
theorem zext12_add_zext8_toNat (nnn : Addr12) (b : Byte) : (zext12 nnn + zext8 b).toNat = nnn.toNat + b.toNat := by
  rw [BitVec.toNat_add, zext12_toNat, zext8_toNat]
  omega

/-- R71, R72: an absolute jump stays below 0x1000, so R65 leaves the machine running. -/
theorem ModeFromPc.running_of_pc_eq_zext12 {t : State} {nnn : Addr12} (h : ModeFromPc t) (hpc : t.pc = zext12 nnn) :
    t.mode = .running :=
  h.2 (by rw [hpc, zext12_toNat]; exact nnn.isLt)

/-- Settles O22: `exec_answers`, and `nnn` is below 0x1000. -/
theorem jumpSetsPc : Obligations.JumpSetsPc := by
  unfold Obligations.JumpSetsPc
  intro s nnn
  obtain ⟨t, ht, hpc, hmode, hframe⟩ := exec_answers (i := .jp nnn) (s := s) (fun _ h => h) nofun
  exact ⟨decodeWord_encode (i := .jp nnn) rfl, t, ht, hpc ▸ zext12_toNat nnn, hmode.running_of_pc_eq_zext12 hpc, hframe⟩

/-- Settles O26: `exec_answers`, and the sum does not wrap (`zext12_add_zext8_toNat`). -/
theorem jumpAddsV0 : Obligations.JumpAddsV0 := by
  unfold Obligations.JumpAddsV0
  intro s nnn
  obtain ⟨t, ht, hpc, hmode, hframe⟩ := exec_answers (i := .jpV0 nnn) (s := s) (fun _ h => h) nofun
  exact ⟨decodeWord_encode (i := .jpV0 nnn) rfl, t, ht, hpc ▸ zext12_add_zext8_toNat nnn _, hmode, hframe⟩

/-- Settles O27: `exec_answers` for each skip, whose condition is the one of `nextPc`. -/
theorem skipsAddTwoWhenConditionHolds : Obligations.SkipsAddTwoWhenConditionHolds := by
  unfold Obligations.SkipsAddTwoWhenConditionHolds
  intro s x y nn
  refine ⟨?_, ?_, ?_, ?_⟩ <;> exact exec_answers (fun _ h => h) nofun

/-! ### `CALL` and `RET` (R72, R73) -/

theorem exists_completes_call {s : State} (nnn : Addr12) (h : s.sp.val < 10) :
    ∃ u, Completes (.call nnn) s u false :=
  exists_completes (fun _ hc => h.ne hc.1) nofun

theorem exists_completes_ret {s : State} (h : 0 < s.sp.val) : ∃ u, Completes .ret s u false :=
  exists_completes (fun _ hc => h.ne' hc.1) nofun

/-- Settles O23: with room `CALL` completes and pushes; with ten addresses the push is refused. -/
theorem callPushesReturnAddress : Obligations.CallPushesReturnAddress := by
  unfold Obligations.CallPushesReturnAddress
  intro s nnn
  refine ⟨decodeWord_encode (i := .call nnn) rfl, fun hroom => ?_, fun hfull => ?_⟩
  · obtain ⟨u, hu⟩ := exists_completes_call nnn hroom
    obtain ⟨_, hslot, hsp⟩ := hu.pushed nnn rfl
    exact ⟨_, hu.answer, hsp, hslot, hu.pc ▸ zext12_toNat nnn, (modeFromPc_writeMode u).running_of_pc_eq_zext12 hu.pc,
      hu.frame.writeMode _⟩
  · exact ⟨State.push_full s.pc hfull, execCall_full nnn hfull⟩

theorem nextPc_ret {s : State} (h : 0 < s.sp.val) : nextPc .ret s = s.stack[s.sp.val - 1]'(by omega) :=
  dif_pos h

/-- Settles O24: with an address stacked `RET` completes and pops it; on an empty stack the pop is refused. -/
theorem returnPopsAddress : Obligations.ReturnPopsAddress := by
  unfold Obligations.ReturnPopsAddress
  refine ⟨rfl, fun s => ⟨fun hpos => ?_, fun hempty => ?_⟩⟩
  · obtain ⟨u, hu⟩ := exists_completes_ret hpos
    obtain ⟨-, hsp⟩ := hu.popped rfl
    exact ⟨_, hu.answer, hsp, hu.pc.trans (nextPc_ret hpos), modeFromPc_writeMode u, hu.frame.writeMode _⟩
  · exact ⟨State.pop_empty hempty, execRet_empty hempty⟩

/-- The slot a `RET` reads, by the depth a `CALL` had found. -/
theorem nextPc_ret_of_sp_eq_succ {s : State} {k : Nat} (hk : k < 10) (h : s.sp.val = k + 1) :
    nextPc .ret s = s.stack[k] := by
  have hpos : 0 < s.sp.val := by omega
  simp only [nextPc_ret hpos, h, Nat.add_sub_cancel]

/-- Settles O25: the slot the `CALL` pushed its `PC` to is the one the `RET` pops. -/
theorem returnGoesBackToCaller : Obligations.ReturnGoesBackToCaller := by
  unfold Obligations.ReturnGoesBackToCaller
  intro s u nnn hroom
  obtain ⟨t, ht⟩ := exists_completes_call nnn hroom
  obtain ⟨_, hslot, hdepth⟩ := ht.pushed nnn rfl
  refine ⟨_, ht.answer, fun hstack hsp => ?_⟩
  have hdepthU : u.sp.val = s.sp.val + 1 := (congrArg Fin.val hsp).trans hdepth
  obtain ⟨u', hu'⟩ := exists_completes_ret (s := u) (by omega)
  obtain ⟨-, hpopped⟩ := hu'.popped rfl
  refine ⟨_, hu'.answer, ?pc, ?sp⟩
  case pc =>
    calc u'.pc
      _ = nextPc .ret u := hu'.pc
      _ = u.stack[s.sp.val] := nextPc_ret_of_sp_eq_succ hroom hdepthU
      _ = t.stack[s.sp.val] := by rw [hstack, State.writeMode_stack]
      _ = s.pc := hslot
  case sp => exact Fin.ext (by rw [State.writeMode_sp, hpopped, hdepthU, Nat.add_sub_cancel])

end Sys2Proof.Machine

namespace Sys2Proof.Machine

/-! ### Arithmetic and logic (42_alu.md R80 to R94)

Each of these instructions ends in one write of `V[x]`, or in the write of a flag and then of the result (R94). What such
an instruction answers is said once for each shape; what is left for each instruction is the value written. -/

theorem ModeFromPc.ne_faulted {t : State} (h : ModeFromPc t) : t.mode ≠ .faulted := by
  rcases Nat.lt_or_ge t.pc.toNat 0x1000 with hpc | hpc
  · rw [h.2 hpc]; decide
  · rw [h.1 hpc]; decide

@[simp] theorem State.readV_writeFlagThenResult_same (s : State) (x : Reg) (f result : Byte) :
    (s.writeFlagThenResult x f result).readV x = result :=
  State.readV_writeV_same _ _ _

/-- R94: unless `x = F`, the result leaves the flag as written. -/
theorem State.readV_writeFlagThenResult_vf (s : State) {x : Reg} (f result : Byte) (hx : x ≠ Reg.vf) :
    (s.writeFlagThenResult x f result).readV Reg.vf = f :=
  (State.readV_writeV_ne _ result hx.symm).trans (s.readV_writeV_same Reg.vf f)

section
variable {i : Instr} {s : State} {x : Reg} {f result : Byte}

theorem exec_of_writeV (h : exec i s = finish false (s.writeV x result)) :
    ∃ t, exec i s = .next t ∧ t.readV x = result ∧ ModeFromPc t ∧ Frame { v := fun r => r == x } s t :=
  ⟨_, h.trans (finish_eq _ _), s.readV_writeV_same x result, modeFromPc_writeMode _, (Frame.writeV s x result).writeMode _⟩

theorem exec_of_writeFlagThenResult (h : exec i s = finish false (s.writeFlagThenResult x f result)) :
    ∃ t, exec i s = .next t ∧ t.readV x = result ∧ (x ≠ Reg.vf → t.readV Reg.vf = f) ∧
      ModeFromPc t ∧ Frame { v := fun r => r == x || r == Reg.vf } s t :=
  ⟨_, h.trans (finish_eq _ _), s.readV_writeFlagThenResult_same x f result,
    s.readV_writeFlagThenResult_vf f result, modeFromPc_writeMode _, (Frame.writeFlagThenResult s x f result).writeMode _⟩

end

/-! #### The flags as numbers (R87 to R91) -/

theorem flag_decide (p : Prop) [Decidable p] : flag (decide p) = if p then 1 else 0 := by
  by_cases hp : p <;> simp [flag, hp]

theorem toNat_flag (b : Bool) : (flag b).toNat = b.toNat := by cases b <;> rfl

theorem toNat_lowBitOut (a : Byte) : (lowBitOut a).toNat = a.toNat % 2 := by
  rw [lowBitOut, toNat_flag, BitVec.getLsbD, Nat.toNat_testBit, Nat.pow_zero, Nat.div_one]

theorem toNat_highBitOut (a : Byte) : (highBitOut a).toNat = a.toNat / 128 := by
  rw [highBitOut, toNat_flag, BitVec.getLsbD, Nat.toNat_testBit]
  omega

/-! #### The results as numbers (R88 to R91, R93) -/

theorem toNat_sub_byte (a b : Byte) : (a - b).toNat = (a.toNat + 256 - b.toNat) % 256 := by
  rw [BitVec.toNat_sub]
  omega

theorem toNat_shiftRight_one (a : Byte) : (a >>> 1).toNat = a.toNat / 2 := by
  rw [BitVec.toNat_ushiftRight, Nat.shiftRight_eq_div_pow, Nat.pow_one]

theorem toNat_shiftLeft_one (a : Byte) : (a <<< 1).toNat = a.toNat * 2 % 256 := by
  rw [BitVec.toNat_shiftLeft, Nat.shiftLeft_eq, Nat.pow_one]

/-! #### The obligations -/

/-- Settles O31: flag then result (`exec_of_writeFlagThenResult`), both computed from the operands as they were. -/
theorem addAndSubtractRegisters : Obligations.AddAndSubtractRegisters := by
  unfold Obligations.AddAndSubtractRegisters
  intro s x y
  refine ⟨?add, ?sub, ?subn⟩
  case add =>
    obtain ⟨t, ht, hx, hvf, hend⟩ := exec_of_writeFlagThenResult (i := .addReg x y) (s := s) rfl
    exact ⟨t, ht, hx ▸ BitVec.toNat_add _ _, fun hne => (hvf hne).trans (flag_decide _), hend⟩
  case sub =>
    obtain ⟨t, ht, hx, hvf, hend⟩ := exec_of_writeFlagThenResult (i := .sub x y) (s := s) rfl
    exact ⟨t, ht, hx ▸ toNat_sub_byte _ _, fun hne => (hvf hne).trans (flag_decide _), hend⟩
  case subn =>
    obtain ⟨t, ht, hx, hvf, hend⟩ := exec_of_writeFlagThenResult (i := .subn x y) (s := s) rfl
    exact ⟨t, ht, hx ▸ toNat_sub_byte _ _, fun hne => (hvf hne).trans (flag_decide _), hend⟩

/-- Settles O32: flag then result (`exec_of_writeFlagThenResult`); the decoder reads no `y` bits for these two digits. -/
theorem shiftsInPlace : Obligations.ShiftsInPlace := by
  unfold Obligations.ShiftsInPlace
  intro s x y
  refine ⟨?decodeShr, ?decodeShl, ?shr, ?shl⟩
  case decodeShr =>
    rw [decodeWord_8xy6 (family_formatXYN ..) (fieldN_formatXYN ..), fieldX_formatXYN]
  case decodeShl =>
    rw [decodeWord_8xyE (family_formatXYN ..) (fieldN_formatXYN ..), fieldX_formatXYN]
  case shr =>
    obtain ⟨t, ht, hx, hvf, hend⟩ := exec_of_writeFlagThenResult (i := .shr x) (s := s) rfl
    exact ⟨t, ht, hx ▸ toNat_shiftRight_one _, fun hne => hvf hne ▸ toNat_lowBitOut _, hend⟩
  case shl =>
    obtain ⟨t, ht, hx, hvf, hend⟩ := exec_of_writeFlagThenResult (i := .shl x) (s := s) rfl
    exact ⟨t, ht, hx ▸ toNat_shiftLeft_one _, fun hne => hvf hne ▸ toNat_highBitOut _, hend⟩

/-- Settles O29: one write of `V[x]` (`exec_of_writeV`), and no mode of R65 is `FAULTED`. -/
theorem loadsAndAddImmediate : Obligations.LoadsAndAddImmediate := by
  unfold Obligations.LoadsAndAddImmediate
  intro s x y nn
  refine ⟨decodeWord_encode (i := .ldImm x nn) rfl, decodeWord_encode (i := .addImm x nn) rfl,
    decodeWord_encode (i := .ldReg x y) rfl, ?ldImm, ?addImm, ?ldReg⟩
  case ldImm =>
    obtain ⟨t, ht, hx, hmode, hframe⟩ := exec_of_writeV (i := .ldImm x nn) (s := s) rfl
    exact ⟨t, ht, hx, hmode.ne_faulted, hframe⟩
  case addImm =>
    obtain ⟨t, ht, hx, hmode, hframe⟩ := exec_of_writeV (i := .addImm x nn) (s := s) rfl
    exact ⟨t, ht, hx ▸ BitVec.toNat_add _ _, hmode.ne_faulted, hframe⟩
  case ldReg =>
    obtain ⟨t, ht, hx, hmode, hframe⟩ := exec_of_writeV (i := .ldReg x y) (s := s) rfl
    exact ⟨t, ht, hx, hmode.ne_faulted, hframe⟩

/-- Settles O30: one write of `V[x]` (`exec_of_writeV`), whose bits are the library's laws of `|||`, `&&&` and `^^^`. -/
theorem logicOperations : Obligations.LogicOperations := by
  unfold Obligations.LogicOperations
  intro s x y
  refine ⟨?or, ?and, ?xor⟩
  case or =>
    obtain ⟨t, ht, hx, hend⟩ := exec_of_writeV (i := .or x y) (s := s) rfl
    exact ⟨t, ht, fun _ => hx ▸ BitVec.getLsbD_or, hend⟩
  case and =>
    obtain ⟨t, ht, hx, hend⟩ := exec_of_writeV (i := .and x y) (s := s) rfl
    exact ⟨t, ht, fun _ => hx ▸ BitVec.getLsbD_and, hend⟩
  case xor =>
    obtain ⟨t, ht, hx, hend⟩ := exec_of_writeV (i := .xor x y) (s := s) rfl
    exact ⟨t, ht, fun _ => hx ▸ BitVec.getLsbD_xor, hend⟩

/-- Settles O33: one write of `V[x]` (`exec_of_writeV`); an AND with `nn` clears what is clear in `nn`, whatever the other
operand. -/
theorem randomByteIsMasked : Obligations.RandomByteIsMasked := by
  unfold Obligations.RandomByteIsMasked
  intro s x nn
  obtain ⟨t, ht, hx, hend⟩ := exec_of_writeV (i := .rnd x nn) (s := s) rfl
  refine ⟨t, ht, fun b hb => ?given, fun k hk => ?masked, hend⟩
  case given => rw [hx, State.randomByte, hb, Option.getD_some]
  case masked => rw [hx, BitVec.getLsbD_and, hk, Bool.and_false]

end Sys2Proof.Machine

namespace Sys2Proof.Machine

/-! ### Index register and memory (43_index_memory.md R95 to R102)

An instruction that answers `finish false u` leaves `u` but for its mode, and what else it may change is what it
`touches`; what is left for each instruction is the value it writes to `I`, to the registers or to the memory. -/

/-- What an instruction is known to answer fixes its mode (R65) and its frame: `finish` answers no faulted state, so the
instruction completes. -/
theorem exec_of_finish {i : Instr} {s u : State} (h : exec i s = finish false u) :
    ∃ m, exec i s = .next (u.writeMode m) ∧ ModeFromPc (u.writeMode m) ∧ Frame (touches i s) s (u.writeMode m) := by
  have hnext := h.trans (finish_eq false u)
  refine ⟨_, hnext, modeFromPc_writeMode u, ?frame⟩
  rcases exec_cases i s with ⟨c, -, hfault⟩ | ⟨u', wait, hu⟩
  · have hstates := Host.Outcome.next.inj (hnext.symm.trans hfault)
    exact absurd (congrArg State.mode hstates) (modeAfter_ne_faulted _ _)
  · have hstates := Host.Outcome.next.inj (hnext.symm.trans (hu.result.trans (finish_eq wait u')))
    exact hstates ▸ hu.frame.writeMode _

/-! #### What is stored and loaded -/

theorem exec_ldVxMem_inRange {s : State} {x : Reg} (h : s.i.toNat + x.val ≤ 0xFFF) :
    exec (.ldVxMem x) s = finish false (s.writeRegs (s.loadedRegs x)) := by
  have hr : s.checkRange (x.val + 1) = none := State.checkRange_none.2 fun k hk => by omega
  simp only [exec, execLdVxMem, hr]

theorem exec_ldB_inRange {s : State} {x : Reg} (h : s.i.toNat + 2 ≤ 0xFFF) :
    exec (.ldB x) s = finish false (s.writeMem (s.mem.store s.i.toNat (bcdDigits (s.readV x)))) := by
  have hr : s.checkRange 3 = none := State.checkRange_none.2 fun k hk => by omega
  simp only [exec, execLdB, hr]

theorem touches_ldMemVx (x : Reg) (s : State) :
    touches (.ldMemVx x) s = { mem := fun a => decide (s.i.toNat ≤ a ∧ a ≤ s.i.toNat + x.val) } := by
  simp only [touches, ← Nat.add_assoc, Nat.lt_succ_iff]

theorem touches_ldB (x : Reg) (s : State) :
    touches (.ldB x) s = { mem := fun a => decide (s.i.toNat ≤ a ∧ a ≤ s.i.toNat + 2) } := by
  simp only [touches, Nat.lt_succ_iff]

theorem State.read_store_bcdDigits {s : State} (hm : s.mem.wf) (h : s.i.toNat + 2 ≤ 0xFFF) (b : Byte) (k : Fin 3) :
    (s.mem.store s.i.toNat (bcdDigits b)).read (s.i.toNat + k.val) = (bcdDigits b)[k.val]'k.isLt :=
  Memory.read_store_inside (bcdDigits b) hm (Nat.succ_le_succ h) k.val k.isLt

/-- R99: a decimal digit fits in the byte that stores it. -/
theorem toNat_digit {d : Nat} (h : d < 256) : (BitVec.ofNat 8 d).toNat = d := Nat.mod_eq_of_lt h

/-! #### The new values of `I` as numbers (R97, R98) -/

theorem toNat_add_zext8 (a : Word) (b : Byte) : (a + zext8 b).toNat = (a.toNat + b.toNat) % 65536 := by
  rw [BitVec.toNat_add, zext8_toNat]

/-- R98: the glyph of the low four bits lies low enough not to wrap. -/
theorem toNat_glyphAddress (b : Byte) : (glyphAddress b).toNat = 0x050 + b.toNat % 16 * 5 := by
  have hlow : (b &&& 0x0F#8).toNat = b.toNat % 16 := Nat.and_two_pow_sub_one_eq_mod b.toNat 4
  simp only [glyphAddress, hlow, BitVec.toNat_ofNat, Config.fontBase, Config.glyphBytes]
  omega

/-! #### The obligations -/

/-- Settles O37: in range the registers are stored (`exec_ldMemVx_inRange`), each at its own address. -/
theorem registersStored : Obligations.RegistersStored := by
  unfold Obligations.RegistersStored
  intro s x hm h
  obtain ⟨m, ht, hmode, hframe⟩ := exec_of_finish (exec_ldMemVx_inRange h)
  exact ⟨_, ht, fun r hr => State.read_store_regRun hm h hr, hmode, touches_ldMemVx x s ▸ hframe⟩

/-- Settles O38: in range the registers are loaded (`exec_ldVxMem_inRange`), each from its own address. -/
theorem registersLoaded : Obligations.RegistersLoaded := by
  unfold Obligations.RegistersLoaded
  intro s x h
  obtain ⟨m, ht, hmode, hframe⟩ := exec_of_finish (exec_ldVxMem_inRange h)
  exact ⟨_, ht, fun r hr => (s.loadedRegs_get x r).trans (if_pos hr), hmode, hframe⟩

/-- Settles O39: a load (`registersLoaded`) from the addresses of the store (`registersStored`). -/
theorem storeThenLoadRestores : Obligations.StoreThenLoadRestores := by
  unfold Obligations.StoreThenLoadRestores
  intro s u x hm h
  obtain ⟨t, ht, hstored, -, -⟩ := registersStored s x hm h
  refine ⟨t, ht, fun hmem hi => ?_⟩
  obtain ⟨u', hu', hloaded, -, -⟩ := registersLoaded u x (hi ▸ h)
  refine ⟨u', hu', fun r hr => ?_⟩
  calc u'.readV r
    _ = u.mem.read (u.i.toNat + r.val) := hloaded r hr
    _ = t.mem.read (s.i.toNat + r.val) := by rw [hmem, hi]
    _ = s.readV r := hstored r hr

/-- Settles O34: one write of `I` each, whose values do not wrap, and no mode of R65 is `FAULTED`. -/
theorem indexLoads : Obligations.IndexLoads := by
  unfold Obligations.IndexLoads
  intro s nnn x
  refine ⟨decodeWord_encode (i := .ldI nnn) rfl, decodeWord_encode (i := .ldF x) rfl, ?ldI, ?ldF⟩
  case ldI =>
    obtain ⟨m, ht, hmode, hframe⟩ := exec_of_finish (i := .ldI nnn) (s := s) rfl
    exact ⟨_, ht, zext12_toNat nnn, hmode.ne_faulted, hframe⟩
  case ldF =>
    obtain ⟨m, ht, hmode, hframe⟩ := exec_of_finish (i := .ldF x) (s := s) rfl
    exact ⟨_, ht, toNat_glyphAddress _, hmode.ne_faulted, hframe⟩

/-- Settles O35: the sum is of the old `V[x]`, and the flag is of the wrapped sum. -/
theorem addToIndexSetsFlag : Obligations.AddToIndexSetsFlag := by
  unfold Obligations.AddToIndexSetsFlag
  intro s x
  obtain ⟨m, ht, hmode, hframe⟩ := exec_of_finish (i := .addI x) (s := s) rfl
  refine ⟨_, ht, toNat_add_zext8 _ _, ?flag, hmode, hframe⟩
  case flag => exact (State.readV_writeV_same _ _ _).trans (flag_decide _)

/-- Settles O36: in range the digits are stored (`exec_ldB_inRange`), and each fits in its byte. -/
theorem decimalDigitsStored : Obligations.DecimalDigitsStored := by
  unfold Obligations.DecimalDigitsStored
  intro s x hm h
  obtain ⟨m, ht, hmode, hframe⟩ := exec_of_finish (exec_ldB_inRange (x := x) h)
  have hread := State.read_store_bcdDigits hm h (s.readV x)
  refine ⟨_, ht, ?hundreds, ?tens, ?ones, hmode, touches_ldB x s ▸ hframe⟩
  case hundreds => exact (congrArg BitVec.toNat (hread 0)).trans (toNat_digit (by omega))
  case tens => exact (congrArg BitVec.toNat (hread 1)).trans (toNat_digit (by omega))
  case ones => exact (congrArg BitVec.toNat (hread 2)).trans (toNat_digit (by omega))

end Sys2Proof.Machine

namespace Sys2Proof.Machine

/-! ### The framebuffer (44_display.md R106 to R109)

A draw in range answers the canvas of `State.drawn`; the laws of the row loop (`drawRows_spec`) give its pixels and its
collision in terms of the sprite's closed form `drwBit`. Drawing twice is that result used twice, the second time on the
state of the first, which holds the same sprite. -/

/-! #### What a draw leaves -/

theorem exec_drw_inRange {s : State} {x y : Reg} {n : BitVec 4} (h : ¬ touchesBeyondMemory (.drw x y n) s) :
    exec (.drw x y n) s = finish false
      ((s.writeFb (s.drawn x y n).1).writeV Reg.vf (collisionFlag (s.drawn x y n).2)).countPresent := by
  have hr : s.checkRange (s.drawCount y n) = none := not_touchesBeyondMemory_iff.1 h
  simp only [exec, execDrw, hr]

theorem drwBit_eq (s : State) (x y : Reg) (n : BitVec 4) (r c : Nat) :
    drwBit s x y n r c = (decide (s.drawY y ≤ r ∧ r < s.drawY y + n.toNat) &&
      rowBit s.mem s.i.toNat (s.drawX x) (s.drawY y) r c) :=
  spriteBit_eq ..

/-- The row loop of a draw, over the rows from 0 on as `drawRows_spec` counts them. -/
theorem State.drawn_eq (s : State) (x y : Reg) (n : BitVec 4) :
    s.drawn x y n = drawRows s.mem s.i.toNat (s.drawX x) (s.drawY y) (List.range' 0 n.toNat) (s.fb, false) := by
  rw [State.drawn, List.range_eq_range']

theorem State.drawn_pixel (s : State) (x y : Reg) (n : BitVec 4) {r c : Nat} (hr : r < 32) (hc : c < 64) :
    (s.drawn x y n).1.pixel r c = (s.fb.pixel r c != drwBit s x y n r c) := by
  rw [State.drawn_eq, (drawRows_spec ..).1 r c hr hc, drwBit_eq, Nat.add_zero]

theorem State.drawn_collision (s : State) (x y : Reg) (n : BitVec 4) :
    (s.drawn x y n).2 = true ↔
      ∃ r c, r < 32 ∧ c < 64 ∧ s.fb.pixel r c = true ∧ drwBit s x y n r c = true := by
  rw [State.drawn_eq, (drawRows_spec ..).2]
  simp only [Bool.false_eq_true, false_or, drwBit_eq, Bool.and_eq_true, decide_eq_true_eq, Nat.add_zero]
  refine exists_congr fun r => exists_congr fun c => ?_
  tauto

theorem collisionFlag_eq_one_iff (b : Bool) : collisionFlag b = 1 ↔ b = true := by cases b <;> decide

theorem collisionFlag_eq_zero_or_one (b : Bool) : collisionFlag b = 0 ∨ collisionFlag b = 1 := by cases b <;> decide

/-! #### What a draw depends on -/

/-- Two states that hold the same sprite for `Dxyn`: the same coordinates, the same `I` and the same bytes. -/
structure SameSprite (x y : Reg) (s t : State) : Prop where
  column : t.readV x = s.readV x
  row : t.readV y = s.readV y
  address : t.i = s.i
  bytes : ∀ a, t.mem.read a = s.mem.read a

theorem SameSprite.drwBit_eq {x y : Reg} {s t : State} (h : SameSprite x y s t) (n : BitVec 4) :
    drwBit t x y n = drwBit s x y n := by
  funext r c
  simp only [drwBit, spriteBit, h.column, h.row, h.address, h.bytes]

theorem SameSprite.touchesBeyondMemory_iff {x y : Reg} {s t : State} (h : SameSprite x y s t) (n : BitVec 4) :
    touchesBeyondMemory (.drw x y n) t ↔ touchesBeyondMemory (.drw x y n) s := by
  simp only [touchesBeyondMemory, bytesTouched, h.row, h.address]

/-- A draw writes no memory, no `I` and no register but `VF`. -/
theorem SameSprite.of_drw_frame {x y : Reg} {s t : State} (hx : x ≠ Reg.vf) (hy : y ≠ Reg.vf)
    (h : Frame { v := fun r => r == Reg.vf, fb := true, presents := true } s t) : SameSprite x y s t :=
  ⟨h.regs x (beq_false_of_ne hx), h.regs y (beq_false_of_ne hy), h.i rfl, fun a => h.mem a rfl⟩

/-! #### The obligations -/

/-- Settles O42: the canvas of a draw in range, by its pixels (`State.drawn_pixel`) and its collision
(`State.drawn_collision`). -/
theorem drawTogglesSpritePixels : Obligations.DrawTogglesSpritePixels := by
  unfold Obligations.DrawTogglesSpritePixels
  intro s x y n hrange
  obtain ⟨m, ht, hmode, hframe⟩ := exec_of_finish (exec_drw_inRange hrange)
  have hvf : ∀ u : State, ((u.writeV Reg.vf (collisionFlag (s.drawn x y n).2)).countPresent.writeMode m).readV Reg.vf =
      collisionFlag (s.drawn x y n).2 := fun u => u.readV_writeV_same Reg.vf _
  refine ⟨_, ht, fun r c hr hc => s.drawn_pixel x y n hr hc, ?collision, ?flag, rfl, hmode, hframe⟩
  case collision => rw [hvf, collisionFlag_eq_one_iff, State.drawn_collision]
  case flag => rw [hvf]; exact collisionFlag_eq_zero_or_one _

/-- Settles O43: both draws are `drawTogglesSpritePixels`, with one sprite (`SameSprite`), and two toggles of a pixel
cancel. -/
theorem drawTwiceRestoresFramebuffer : Obligations.DrawTwiceRestoresFramebuffer := by
  unfold Obligations.DrawTwiceRestoresFramebuffer
  intro s x y n hx hy hrange
  obtain ⟨t, ht, htPixel, -, -, -, -, htFrame⟩ := drawTogglesSpritePixels s x y n hrange
  have hsame : SameSprite x y s t := .of_drw_frame hx hy htFrame
  obtain ⟨u, hu, huPixel, huFlag, -⟩ := drawTogglesSpritePixels t x y n (mt (hsame.touchesBeyondMemory_iff n).1 hrange)
  rw [hsame.drwBit_eq n] at huPixel huFlag
  refine ⟨t, u, ht, hu, Framebuffer.ext_pixels fun r c hr hc => ?restored, huFlag.trans ?turnedOn⟩
  case restored => rw [huPixel r c hr hc, htPixel r c hr hc, Bool.bne_assoc, bne_self_eq_false, Bool.bne_false]
  case turnedOn =>
    refine exists_congr fun r => exists_congr fun c => and_congr_right fun hr => and_congr_right fun hc =>
      and_congr_left fun hbit => ?_
    rw [htPixel r c hr hc, hbit, Bool.bne_true, Bool.not_eq_true']

theorem touches_presents_eq_false {i : Instr} (h : ¬ ∃ x y n, i = .drw x y n) (s : State) :
    (touches i s).presents = false := by
  cases i with
  | drw x y n => exact absurd ⟨x, y, n, rfl⟩ h
  | _ => rfl

/-- Settles O44: a draw in range counts one (`drawTogglesSpritePixels`); a fault counts none, a draw out of range does not
complete, and no other instruction touches the count. -/
theorem presentCountsCompletedDraws : Obligations.PresentCountsCompletedDraws := by
  unfold Obligations.PresentCountsCompletedDraws
  intro i s t h
  refine ⟨?draw, fun hnot => ?other⟩
  case draw =>
    rintro ⟨⟨x, y, n, rfl⟩, hrange⟩
    obtain ⟨t', ht', -, -, -, hpresents, -⟩ := drawTogglesSpritePixels s x y n hrange
    obtain rfl : t' = t := Host.Outcome.next.inj (ht'.symm.trans h)
    exact hpresents
  case other =>
    rcases exec_next_cases h with ⟨c, -, rfl⟩ | ⟨u, wait, hu, rfl⟩
    · rfl
    · refine hu.frame.presents (touches_presents_eq_false ?_ s)
      rintro ⟨x, y, n, rfl⟩
      exact hnot ⟨⟨x, y, n, rfl⟩, fun hbeyond => hu.noFault .memRange ⟨hbeyond, rfl⟩⟩

/-- Settles O41: one write of the framebuffer, which is blank pixel by pixel and is the one of reset. -/
theorem clearTurnsEveryPixelOff : Obligations.ClearTurnsEveryPixelOff := by
  unfold Obligations.ClearTurnsEveryPixelOff
  intro s
  obtain ⟨m, ht, hmode, hframe⟩ := exec_of_finish (i := .cls) (s := s) rfl
  exact ⟨_, ht, Framebuffer.pixel_blank, rfl, hmode, hframe⟩

end Sys2Proof.Machine

namespace Sys2Proof.Machine

/-! ### Timers and keypad (45_timer_keypad.md R111 to R117), and the writers of each piece of state

What holds of every instruction is read off two facts about an answer: it differs from the state before by what the
instruction `touches` (`exec_frame`), and only two instructions leave another memory (`exec_keeps_mem`). -/

/-! #### Waiting for a key (R116) -/

theorem exec_ldVxK_key {x : Reg} {s : State} {k : Nat} (h : s.lowestKey = some k) :
    exec (.ldVxK x) s = finish false (s.writeV x (BitVec.ofNat 8 k)) := by
  simp only [exec, execLdVxK, h]

theorem State.exists_lowestKey {s : State} (h : s.keys ≠ 0) : ∃ k, s.lowestKey = some k :=
  Option.ne_none_iff_exists'.1 (mt State.lowestKey_none.1 h)

/-- Settles O47: with no key down `PC` is the one register written; otherwise `V[x]` is, with a number below 16, which
its byte holds. -/
theorem waitForKey : Obligations.WaitForKey := by
  unfold Obligations.WaitForKey
  intro s x
  refine ⟨fun hnone => ?noKey, fun hsome => ?key⟩
  case noKey =>
    exact ⟨_, (exec_ldVxK_noKey hnone).trans (finish_eq _ _), rfl,
      fun hlow => (modeAfter_keyWait _ _).2 ⟨hlow, rfl⟩, (Frame.writePc s _).writeMode _⟩
  case key =>
    obtain ⟨k, hk⟩ := State.exists_lowestKey hsome
    obtain ⟨hk16, hdown, hlowest⟩ := State.lowestKey_some.1 hk
    obtain ⟨t, ht, hx, hmode, hframe⟩ := exec_of_writeV (exec_ldVxK_key (x := x) hk)
    exact ⟨t, k, ht, hk16, hdown, hlowest, hx ▸ toNat_digit (by omega), hmode, hframe⟩

/-! #### What any answer leaves unchanged -/

theorem Frame.withCause {w : Touched} {s t : State} (h : Frame w s t) : Frame { w with cause := true } s t :=
  { h with cause := nofun }

theorem Frame.faultedWith (w : Touched) (c : FaultCause) (s : State) :
    Frame { w with cause := true } s (faultedWith c s) :=
  { Frame.refl w s with cause := nofun }

/-- R122: an instruction changes what it `touches`, or raises a fault and writes `FAULT_CAUSE`. -/
theorem exec_frame {i : Instr} {s t : State} (h : exec i s = .next t) :
    Frame { touches i s with cause := true } s t := by
  rcases exec_next_cases h with ⟨c, -, rfl⟩ | ⟨u, wait, hu, rfl⟩
  · exact Frame.faultedWith _ c s
  · exact (hu.frame.writeMode _).withCause

theorem finish_mem {wait : Bool} {u t : State} (h : finish wait u = .next t) : t.mem = u.mem := by
  cases h; rfl

theorem raise_mem {r : Raised} {s t : State} (h : raise r s = .next t) : t.mem = s.mem := by
  cases h; rfl

@[simp] theorem State.skipIf_mem (s : State) (c : Bool) : (s.skipIf c).mem = s.mem := by
  rw [State.skipIf_eq]

/-- R34: a frame speaks of the bytes a memory reads, so that the memory is the same list, canonical or not, is a fact of
its own. -/
theorem exec_keeps_mem {i : Instr} {s t : State} (h : exec i s = .next t) (hldB : ∀ x, i ≠ .ldB x)
    (hldMemVx : ∀ x, i ≠ .ldMemVx x) : t.mem = s.mem := by
  cases i with
  | ldB x => exact absurd rfl (hldB x)
  | ldMemVx x => exact absurd rfl (hldMemVx x)
  | seImm | sneImm | seReg | sneReg => exact (finish_mem h).trans (State.skipIf_mem ..)
  | skp x | sknp x =>
    simp only [exec, execSkp, execSknp] at h
    split at h
    · exact raise_mem h
    · exact (finish_mem h).trans (State.skipIf_mem ..)
  | drw x y n | ldVxMem x =>
    simp only [exec, execDrw, execLdVxMem] at h
    split at h
    · exact raise_mem h
    · exact (finish_mem h).trans rfl
  | ldVxK x =>
    simp only [exec, execLdVxK] at h
    split at h <;> exact (finish_mem h).trans rfl
  | call nnn =>
    rcases Nat.lt_succ_iff_lt_or_eq.1 s.sp.isLt with hroom | hfull
    · exact (finish_mem ((execCall_room nnn hroom).symm.trans h)).trans rfl
    · cases (execCall_full nnn hfull).symm.trans h; rfl
  | ret =>
    rcases Nat.eq_zero_or_pos s.sp.val with hempty | hpos
    · cases (execRet_empty hempty).symm.trans h; rfl
    · exact (finish_mem ((execRet_stacked hpos).symm.trans h)).trans rfl
  | _ => exact (finish_mem h).trans rfl

/-! #### The writers of each piece of state (10_state.md, the summary) -/

section
variable {i : Instr} {s : State}

theorem writer_of_touches_i (h : (touches i s).i = true) :
    (∃ nnn, i = .ldI nnn) ∨ (∃ x, i = .addI x) ∨ ∃ x, i = .ldF x := by
  cases i with
  | ldI nnn => exact .inl ⟨nnn, rfl⟩
  | addI x => exact .inr (.inl ⟨x, rfl⟩)
  | ldF x => exact .inr (.inr ⟨x, rfl⟩)
  | _ => cases h

theorem writer_of_touches_slot {k : Nat} (h : (touches i s).slot k = true) : ∃ nnn, i = .call nnn := by
  cases i with
  | call nnn => exact ⟨nnn, rfl⟩
  | _ => cases h

theorem writer_of_touches_sp (h : (touches i s).sp = true) : (∃ nnn, i = .call nnn) ∨ i = .ret := by
  cases i with
  | call nnn => exact .inl ⟨nnn, rfl⟩
  | ret => exact .inr rfl
  | _ => cases h

theorem writer_of_touches_dt (h : (touches i s).dt = true) : ∃ x, i = .ldDTVx x := by
  cases i with
  | ldDTVx x => exact ⟨x, rfl⟩
  | _ => cases h

theorem writer_of_touches_st (h : (touches i s).st = true) : ∃ x, i = .ldSTVx x := by
  cases i with
  | ldSTVx x => exact ⟨x, rfl⟩
  | _ => cases h

theorem writer_of_touches_fb (h : (touches i s).fb = true) : i = .cls ∨ ∃ x y n, i = .drw x y n := by
  cases i with
  | cls => exact .inl rfl
  | drw x y n => exact .inr ⟨x, y, n, rfl⟩
  | _ => cases h

end

/-- A field that has changed is one the frame lets change. -/
theorem touched_of_ne {α : Type} {touched : Bool} {new old : α} (hframe : touched = false → new = old)
    (hne : new ≠ old) : touched = true :=
  Bool.eq_true_of_not_eq_false (mt hframe hne)

/-- Settles O49: a field that has changed is touched (`exec_frame`), and each is touched by its writers only; the
memory is kept whole by every instruction but its two writers (`exec_keeps_mem`). -/
theorem stateWrittenOnlyByItsWriters : Obligations.StateWrittenOnlyByItsWriters := by
  unfold Obligations.StateWrittenOnlyByItsWriters
  intro i s t h
  have hframe := exec_frame h
  refine ⟨fun hne => writer_of_touches_i (touched_of_ne hframe.i hne), ?stack,
    fun hne => writer_of_touches_sp (touched_of_ne hframe.sp hne),
    fun hne => writer_of_touches_dt (touched_of_ne hframe.dt hne),
    fun hne => writer_of_touches_st (touched_of_ne hframe.st hne),
    fun hne => writer_of_touches_fb (touched_of_ne hframe.fb hne), ?mem, hframe.inputs⟩
  case stack =>
    intro hne
    by_contra hcall
    have hslot : ∀ k, (touches i s).slot k = false := fun k => Bool.eq_false_iff.2 (mt writer_of_touches_slot hcall)
    exact hne (Vector.ext fun k hk => hframe.stack k hk (hslot k))
  case mem =>
    intro hne
    by_contra hwriter
    obtain ⟨hldB, hldMemVx⟩ := not_or.1 hwriter
    exact hne (exec_keeps_mem h (not_exists.1 hldB) (not_exists.1 hldMemVx))

/-! #### Timer moves and key skips (R111 to R115) -/

/-- Settles O45: each is one write, of `V[x]` or of a timer. -/
theorem timerMoves : Obligations.TimerMoves := by
  unfold Obligations.TimerMoves
  intro s x
  refine ⟨decodeWord_encode (i := .ldVxDT x) rfl, decodeWord_encode (i := .ldDTVx x) rfl,
    decodeWord_encode (i := .ldSTVx x) rfl, exec_of_writeV rfl, ?setDT, ?setST⟩
  case setDT =>
    obtain ⟨m, ht, hmode, hframe⟩ := exec_of_finish (i := .ldDTVx x) (s := s) rfl
    exact ⟨_, ht, rfl, hmode, hframe⟩
  case setST =>
    obtain ⟨m, ht, hmode, hframe⟩ := exec_of_finish (i := .ldSTVx x) (s := s) rfl
    exact ⟨_, ht, rfl, hmode, hframe⟩

/-- R124: an instruction has at most one fault to raise. -/
theorem RaisesFault.cause_eq {i : Instr} {s : State} {c c' : FaultCause} (h : RaisesFault i s c)
    (h' : RaisesFault i s c') : c = c' := by
  cases i with
  | call | ret | drw | ldB | ldMemVx | ldVxMem | skp | sknp => exact h.2.trans h'.2.symm
  | _ => exact h.elim

theorem exec_of_raisesFault {i : Instr} {s : State} {c : FaultCause} (h : RaisesFault i s c) :
    exec i s = .next (faultedWith c s) := by
  rcases exec_cases i s with ⟨c', hc', he⟩ | ⟨u, wait, hu⟩
  · rwa [h.cause_eq hc']
  · exact absurd h (hu.noFault c)

/-- Settles O46: a key number up to 15 raises nothing, so `exec_answers` applies, with the condition of `nextPc`; one
above 15 is the fault of R121. -/
theorem keySkips : Obligations.KeySkips := by
  unfold Obligations.KeySkips
  intro s x
  refine ⟨fun hkey => ⟨?skp, ?sknp⟩, fun hbeyond => ⟨State.keyIndex_error hbeyond, ?skpFaults, ?sknpFaults⟩⟩
  case skp => exact exec_answers (i := .skp x) (fun _ hc => hkey.not_gt hc.1) nofun
  case sknp => exact exec_answers (i := .sknp x) (fun _ hc => hkey.not_gt hc.1) nofun
  case skpFaults => exact exec_of_raisesFault ⟨hbeyond, rfl⟩
  case sknpFaults => exact exec_of_raisesFault ⟨hbeyond, rfl⟩

end Sys2Proof.Machine

namespace Sys2Proof.Machine

/-! ### Events and faults (60_exceptions.md R121 to R131) -/

/-! #### The `timer_tick` (R130, R131) and the order of events presented together (R127) -/

theorem step_timerTick_running {s : State} {rest : List Event} (hm : s.mode.stopped = false)
    (he : s.events = .timerTick :: rest) :
    step s = .next { s with events := rest, dt := countDown s.dt, st := countDown s.st } := by
  rw [step_timerTick he, timerTick_running (s := { s with events := rest }) hm]

theorem step_timerTick_stopped {s : State} {rest : List Event} (hm : s.mode.stopped = true)
    (he : s.events = .timerTick :: rest) : step s = .next { s with events := rest } := by
  rw [step_timerTick he, timerTick_stopped (s := { s with events := rest }) hm]

/-- Settles O18: by induction on the number of `timer_tick`s; each leaves the machine running, with both timers counted
down by one. -/
theorem timersReachZeroAndStay : Obligations.TimersReachZeroAndStay := by
  unfold Obligations.TimersReachZeroAndStay
  intro k
  induction k with
  | zero =>
    rintro s rest - rfl
    exact ⟨s, rfl, rfl, rfl, rfl⟩
  | succ k ih =>
    intro s rest hm he
    have hstep := step_timerTick_running hm he
    obtain ⟨t, hrun, hframe, hdt, hst⟩ := ih
      { s with events := List.replicate k .timerTick ++ rest, dt := countDown s.dt, st := countDown s.st } rest hm rfl
    exact ⟨t, (run_next k hstep).trans hrun, hframe, hdt.trans (countDown_toNat_sub s.dt k),
      hst.trans (countDown_toNat_sub s.st k)⟩

/-- Settles O17: a running machine counts both timers down, and a stopped one only takes the event off the list. -/
theorem timerTickCountsDown : Obligations.TimerTickCountsDown := by
  unfold Obligations.TimerTickCountsDown
  intro s rest he
  cases hm : s.mode.stopped with
  | false =>
    exact ⟨_, step_timerTick_running hm he, rfl, fun _ => ⟨countDown_toNat s.dt, countDown_toNat s.st⟩, nofun⟩
  | true => exact ⟨_, step_timerTick_stopped hm he, rfl, nofun, fun _ => ⟨rfl, rfl⟩⟩

/-- Settles O19: by the definition of the order, for each combination of events presented. -/
theorem coincidentEventsSerialised : Obligations.CoincidentEventsSerialised := by
  unfold Obligations.CoincidentEventsSerialised
  exact ⟨fun _ _ => rfl, fun _ _ => rfl, fun _ _ => rfl, rfl, rfl, fun _ _ => rfl⟩

/-! #### Precise faults (R121, R122, R124) -/

/-- R122: an instruction that completes takes its mode from R65, so only a raised fault leaves `FAULTED`. -/
theorem exists_raisesFault_of_faulted {i : Instr} {s t : State} (h : exec i s = .next t) (hm : t.mode = .faulted) :
    ∃ c, RaisesFault i s c ∧ t.faultCause = c := by
  rcases exec_next_cases h with ⟨c, hc, rfl⟩ | ⟨u, wait, -, rfl⟩
  · exact ⟨c, hc, rfl⟩
  · exact absurd hm (modeAfter_ne_faulted wait u.pc)

/-- Settles O51: a fault's condition gives the faulted state (`exec_of_raisesFault`) and its cause
(`RaisesFault.cause_eq`), and nothing else gives that mode (`exists_raisesFault_of_faulted`). -/
theorem faultsArePrecise : Obligations.FaultsArePrecise := by
  unfold Obligations.FaultsArePrecise
  exact ⟨fun _ _ _ => exec_of_raisesFault, fun _ _ _ _ => RaisesFault.cause_eq,
    fun _ _ _ => exists_raisesFault_of_faulted⟩

end Sys2Proof.Machine

namespace Sys2Proof.Machine

/-! ### Reset and launch (70_reset_and_hazards.md R140 to R143) -/

/-! #### The launch image (R143) -/

theorem State.launch_eq (s : State) (font program : List Byte) :
    s.launch font program = { s with mem := (s.mem.store 0x050 font).store 0x200 program } := rfl

/-- Settles O57: the font ends below the program, so the second run of stores leaves the first as it is, and both lie
inside the memory. -/
theorem launchPlacesFontAndProgram : Obligations.LaunchPlacesFontAndProgram := by
  unfold Obligations.LaunchPlacesFontAndProgram
  intro s font program hmem hfont hprogram
  have hfontFits : 0x050 + font.length ≤ Config.memSize := by simp [hfont]
  have hprogramFits : 0x200 + program.length ≤ Config.memSize := Nat.add_le_add_left hprogram 0x200
  have hfontWf : (s.mem.store 0x050 font).wf := Memory.store_wf font hmem hfontFits
  rw [State.launch_eq]
  refine ⟨Memory.read_store_inside program hfontWf hprogramFits, ?glyphs, ?elsewhere,
    Memory.store_wf program hfontWf hprogramFits, rfl⟩
  case glyphs =>
    intro j hj
    have hbelow : 0x050 + j < 0x200 := by omega
    exact (Memory.read_store_outside program _ (.inl hbelow)).trans
      (Memory.read_store_inside font hmem hfontFits j hj)
  case elsewhere =>
    intro a hnotFont hnotProgram
    exact (Memory.read_store_outside program _ (by omega)).trans (Memory.read_store_outside font _ (by omega))

/-! #### The `reset` event and the state it leaves (R140, R141) -/

/-- Settles O12: the block state is the reset state's, whose values are `resetStateValues`; the memory and the inputs
are the old ones. -/
theorem resetEventRestoresBlock : Obligations.ResetEventRestoresBlock := by
  unfold Obligations.ResetEventRestoresBlock
  intro s rest he
  obtain ⟨hregs, hpc, hi, hsp, hstack, hdt, hst, hmode, hcause, -, hpixels, hpresents⟩ := resetStateValues
  exact ⟨_, step_reset he, rfl, hregs, hpc, hi, hsp, hstack, hdt, hst, hmode, hcause, hpixels, hpresents,
    rfl, rfl, rfl⟩

/-- Settles O13: the reset state is what a `reset` leaves of it, and its memory is canonical. -/
theorem resetStateIsGood : Obligations.ResetStateIsGood := by
  unfold Obligations.ResetStateIsGood
  have hreset : resetBlock State.reset = State.reset := rfl
  exact hreset ▸ resetBlock_inv Memory.reset_wf

end Sys2Proof.Machine
